-- ==== Sys2Proof/Word.lean ====
section
/-!
DEFINITION. The word types of the block and its plainest arithmetic (spec/00_scope.md R6, R7).
-/

namespace Sys2Proof

/-- One 8-bit unit: a byte or a character code (R6, `BYTE_BITS` and `CHAR_BITS`). -/
abbrev Byte := BitVec 8

/-- A 5-bit symbol value (R6, `SYM_BITS`). -/
abbrev Value := BitVec 5

/-- A 16-bit command word (R70). -/
abbrev CmdWord := BitVec 16

/-- `ceil(a/b)` of R7. -/
def ceilDiv (a b : Nat) : Nat := (a + b - 1) / b

end Sys2Proof
end

