-- ==== Sys2Proof/Config.lean ====
section
/-!
DEFINITION. The implementation parameters the spec leaves open (spec/00_scope.md R6): arguments of the model.
-/

namespace Sys2Proof

/-- The open parameters of R6. `none` stands for "unbounded", which R6 allows for `MAX_N` and which
makes `IDX_BITS` unbounded too. The fifth open parameter, `BUS_BINDING`, has no rule that depends on it
(log 15). A `Config` is carried in `State` and no step writes it (log 1). -/
structure Config where
  /-- `NUM_ENGINES`, at least 1 (D18). -/
  numEngines : Nat
  /-- `MAX_N`, the largest input length one command accepts (D12). -/
  maxN : Option Nat
  /-- `IDX_BITS`, the width of the cursor, `N`, `ERR_INDEX` and `OUT_LEN` (D22). -/
  idxBits : Option Nat
  deriving DecidableEq, Repr

/-- R46: an input of `len` units is within capacity. -/
def Config.fits (c : Config) (len : Nat) : Bool :=
  match c.maxN with
  | none => true
  | some m => decide (len ≤ m)

/-- R6, D22: an index or length fits `IDX_BITS`. -/
def Config.indexFits (c : Config) (k : Nat) : Bool :=
  match c.idxBits with
  | none => true
  | some b => decide (k < 2 ^ b)

/-- The constraints R6 puts on the parameters: at least one engine, and
`2^IDX_BITS > max(MAX_N, 8*ceil(MAX_N/5))`. -/
def Config.wf (c : Config) : Bool :=
  decide (1 ≤ c.numEngines) &&
    match c.maxN with
    | none => decide (c.idxBits = none)
    | some m => c.indexFits (max m (8 * ceilDiv m 5))

/-- The parameters of `State.reset` (DESIGN CHOICE, log 2): two engines, the least number with which
every rule can be seen at work, and no bound on the input. -/
def Config.default : Config := { numEngines := 2, maxN := none, idxBits := none }

end Sys2Proof
end

