-- ==== Sys2Proof/Syntax.lean ====
section
/-!
DEFINITION. The commands of the block (spec/30_encoding.md R71, spec/opcode_table.json), the reasons a
command or access is refused (spec/60_exceptions.md R207), and the assembler's lines (R78).
-/

namespace Sys2Proof

/-- One constructor per row of the opcode table, with the operands its word carries (R73). The data
sequence of `ENC` and `DEC` travels beside the word (R70): see `Command`. -/
inductive Instr where
  /-- `ENC`: encode the data sequence (R120). -/
  | enc
  /-- `DEC`: decode the data sequence (R150). -/
  | dec
  /-- `FWD v`: read the forward table (R100). -/
  | fwd (v : Value)
  /-- `REV c`: read the reverse table, case-insensitively (R103). -/
  | rev (c : Byte)
  deriving DecidableEq, Repr

/-- A command: what its word says, and the data sequence that travels beside it (R70). -/
structure Command where
  instr : Instr
  data : List Byte
  deriving DecidableEq, Repr

/-- The refusal reasons of R207, in its order. -/
inductive RefuseReason where
  | reservedOpcode
  | reservedBits
  | argNonzero
  | fwdRange
  | dataOnTableOp
  | capacity
  | busy
  | access
  deriving DecidableEq, Repr

/-- One line of assembly text once parsed (R78). Numbers are as written: the range checks of R80 belong
to the assembler. -/
inductive SourceLine where
  | enc (data : List Byte)
  | dec (data : List Byte)
  | fwd (n : Nat)
  | rev (n : Nat)
  | word (n : Nat) (data : List Byte)
  deriving DecidableEq, Repr

/-- Why the assembler rejects a line. -/
inductive AsmError where
  /-- The line does not have a form of R78 and R79. -/
  | malformed
  /-- A number is out of its range (R78, R79, R80). -/
  | range
  deriving DecidableEq, Repr

end Sys2Proof
end

