-- ==== Sys2Proof/Machine/State.lean ====
section
/-!
DEFINITION. The state of the block as plain data (spec/10_state.md), the reasons a step can stop, and reset.
-/

namespace Sys2Proof.Machine

/-- `STATE`, the engine's sequencing state (R27). Encodings 5 to 7 never occur and have no constructor. -/
inductive EngineState where
  /-- No command is executing. -/
  | idle
  /-- The encoder is consuming input bytes. -/
  | enc
  /-- The decoder is validating input characters. -/
  | dchk
  /-- The decoder is consuming input characters. -/
  | dec
  /-- A table read is pending. -/
  | tbl
  deriving DecidableEq, Repr

/-- R27: the 3-bit encoding of `STATE`. -/
def EngineState.code : EngineState → BitVec 3
  | .idle => 0
  | .enc => 1
  | .dchk => 2
  | .dec => 3
  | .tbl => 4

/-- All the registers of one engine (R20). Index registers of `IDX_BITS` bits are natural numbers (log 9). -/
structure Engine where
  /-- `STATE` (R27). `STATUS.BUSY` is a view of it (R36). -/
  state : EngineState
  /-- `OPC` (R28). -/
  opc : BitVec 4
  /-- `ARG` (R28). -/
  arg : Byte
  /-- `IN` (R29), a list of units (log 21). -/
  input : List Byte
  /-- `N` (R29). -/
  n : Nat
  /-- `I`, the input cursor (R30). -/
  i : Nat
  /-- `G`, the position within the current group (R31). -/
  g : BitVec 3
  /-- `ACC`, the pending bits (R32). -/
  acc : BitVec 7
  /-- `NB`, the number of valid pending bits (R32). -/
  nb : BitVec 3
  /-- `STOP` (R33). -/
  stop : Bool
  /-- `OUT` (R34), a list of units (log 21). -/
  out : List Byte
  /-- `STATUS.DONE` (R36); `STATUS` is kept as its fields (log 20). -/
  done : Bool
  /-- `STATUS.ERR` (R36). -/
  err : Bool
  /-- `STATUS.ERRCODE` (R36). -/
  errcode : BitVec 4
  /-- `STATUS.LASTOP` (R36). -/
  lastop : BitVec 4
  /-- `ERR_INDEX`, register 1 (R37). -/
  errIndex : Nat
  /-- `ERR_CHAR`, register 2 (R38). -/
  errChar : Byte
  /-- `RVAL`, register 3 (R39). -/
  rval : Byte
  /-- `OUT_LEN`, register 4 (R40). -/
  outLen : Nat
  deriving DecidableEq, Repr

/-- Every engine register at the reset value of R49. -/
def Engine.reset : Engine :=
  { state := .idle, opc := 0, arg := 0, input := [], n := 0, i := 0, g := 0, acc := 0, nb := 0,
    stop := false, out := [], done := false, err := false, errcode := 0, lastop := 0, errIndex := 0,
    errChar := 0, rval := 0, outLen := 0 }

/-- One item of the agenda: a host step (R20), or the turn of one engine (log 3). -/
inductive Event where
  /-- The host presents the command word `w` with the data `d` to engine `e` (R46). -/
  | issue (e : Nat) (w : CmdWord) (d : List Byte)
  /-- The host reads register `r` of engine `e` (R41). -/
  | readReg (e r : Nat)
  /-- The host reads `OUT[j]` of engine `e` (R53). -/
  | readOut (e j : Nat)
  /-- The host asserts reset (R230). -/
  | reset
  /-- Engine `e` takes its step (R239). -/
  | run (e : Nat)
  deriving DecidableEq, Repr

/-- What a read of the host returned (R48, ports `REG` and `OUTBUF`). -/
inductive Reply where
  | reg (e r : Nat) (value : Nat)
  | out (e j : Nat) (value : Byte)
  deriving DecidableEq, Repr

/-- The spec's model faults (R208): recorded, never cleared, never final. -/
inductive FaultReason where
  /-- R208 (a): a `DEC` step met an `INVALID` code (R163). -/
  | invalidInDec
  /-- R208 (b): an invariant of R35 (or `ACC < 2^NB`, U19) does not hold between steps. -/
  | invariantBroken
  deriving DecidableEq, Repr

/-- A refusal mark (R207): the engine the command or access was for, and the reason. -/
structure RefusalMark where
  engine : Nat
  reason : RefuseReason
  deriving DecidableEq, Repr

/-- A fault mark (R208). -/
structure FaultMark where
  engine : Nat
  reason : FaultReason
  deriving DecidableEq, Repr

/-- The state of the block. -/
structure State where
  /-- The open parameters of R6: arguments of the model, written by no step (log 1). -/
  config : Config
  /-- The engines, by index (R20, R211). -/
  engines : List Engine
  /-- The host's steps and the engines' turns still to come, oldest first (log 3). -/
  agenda : List Event
  /-- The engine whose step is being taken (the model's own field, log 19). -/
  turn : Nat
  /-- What the host's reads returned, oldest first (the model's own field, log 19). -/
  replies : List Reply
  /-- The refusal marks, oldest first; no step clears one (R207, log 7). -/
  refusals : List RefusalMark
  /-- The fault marks, oldest first; no step clears one (R208, log 7). -/
  faults : List FaultMark
  deriving DecidableEq, Repr

/-- Why the machine stops with a fault. None of these is the spec's error `InvalidCharacter` (a completion)
nor a model fault of R208 (a mark). -/
inductive Fault where
  /-- Raised by `step` when the agenda is empty and every engine is `IDLE`: U20, "stuck by design. It has no
  step until the host issues a command". Safe (log 6). -/
  | idle
  /-- Raised by an item of the agenda, or a turn, that names an engine the instance does not have (R20, R211).
  Safe (log 11). -/
  | noSuchEngine
  /-- Raised by a meaning whose engine is not executing that command at a step of it, and by a turn of an
  engine whose `OPC` and `ARG` are no command: no rule enables a step there. No run reaches it. Safe (log 11). -/
  | noEnabledStep
  deriving DecidableEq, Repr

/-- Why the machine stops with a refusal. The spec's refusals of R207 are marks, not stops. -/
inductive Refusal where
  /-- Raised by `exec` for an instruction without a meaning. Safe. -/
  | notModelled (mnemonic : String)
  /-- Raised by an engine step that would read `IN` outside `0..N-1`, which R53 gives no meaning and no step
  of a run performs. Safe (log 12). -/
  | inputAccess
  deriving DecidableEq, Repr

/-- The state right after reset for any parameters: every engine at R49, nothing recorded, nothing scheduled. -/
def State.resetFor (c : Config) : State :=
  { config := c, engines := List.replicate c.numEngines Engine.reset, agenda := [], turn := 0,
    replies := [], refusals := [], faults := [] }

/-- The state right after reset (R49, R231), with the parameters of log 2. -/
def State.reset : State := State.resetFor Config.default

end Sys2Proof.Machine
end

