-- ==== Sys2Proof/Machine/Flags.lean ====
section
/-!
DEFINITION. The status register and who writes it (spec/10_state.md R36, R45).
-/

namespace Sys2Proof.Machine

/-- `STATUS.BUSY`: 1 while `STATE != IDLE`, a view of `STATE` (R36). -/
def Engine.busy (e : Engine) : Bool := e.state != .idle

/-- R36: `STATUS` as the host reads it; bits [3] and [15:12] read 0. -/
def Engine.status (e : Engine) : BitVec 16 :=
  (0 : BitVec 4) ++ e.lastop ++ e.errcode ++ (0 : BitVec 1) ++ BitVec.ofBool e.err ++ BitVec.ofBool e.done ++
    BitVec.ofBool e.busy

/-- R45, the row "issue of any accepted command", with `LASTOP` (R46). -/
def Engine.flagsIssued (e : Engine) (op : BitVec 4) : Engine :=
  { e with done := false, err := false, errcode := 0, lastop := op }

/-- R45, the row `complete_ok()`. -/
def Engine.flagsOk (e : Engine) : Engine := { e with done := true, err := false, errcode := 0 }

/-- R45, the row `raise InvalidCharacter`; the code is R200's. -/
def Engine.flagsInvalidCharacter (e : Engine) : Engine := { e with done := true, err := true, errcode := 1 }

end Sys2Proof.Machine
end

