-- ==== Sys2Proof/WellFormed.lean ====
section
/-!
DEFINITION. When a command is well formed (spec/30_encoding.md R73, spec/10_state.md R46). The operand
fields need no check: their types have exactly the legal values.
-/

namespace Sys2Proof

/-- R73: whether the operation takes a data sequence. -/
def Instr.takesData : Instr → Bool
  | .enc => true
  | .dec => true
  | .fwd _ => false
  | .rev _ => false

/-- R73, R75: a table read carries no data. -/
def Command.dataAllowed (c : Command) : Bool := c.instr.takesData || c.data.isEmpty

/-- R73, R46: a command is well formed when its operation may carry its data and the data fits `MAX_N`. -/
def Command.wellFormed (cfg : Config) (c : Command) : Bool :=
  c.dataAllowed && cfg.fits c.data.length

end Sys2Proof
end

