-- ==== Sys2Proof/Decode.lean ====
section
/-!
DEFINITION. The check and decoding of a command (spec/30_encoding.md R70 to R77), total on every 16-bit
word and every data sequence, and the encoder.
-/

namespace Sys2Proof

/-- R70: `w[15:12]`. -/
def opField (w : CmdWord) : BitVec 4 := w.extractLsb' 12 4

/-- R70: `w[11:8]`. -/
def rsvField (w : CmdWord) : BitVec 4 := w.extractLsb' 8 4

/-- R70: `w[7:0]`. -/
def argField (w : CmdWord) : Byte := w.extractLsb' 0 8

/-- R73: `ARG[4:0]`, the operand of `FWD`. -/
def fwdOperand (arg : Byte) : Value := arg.extractLsb' 0 5

/-- The checks of R75 that look at the word alone, in the order written: the first that fails names the
reason. The last check of R75 looks at the data; it is in `check`. -/
def decode (w : CmdWord) : Except RefuseReason Instr :=
  if !(opField w == 1 || opField w == 2 || opField w == 3 || opField w == 4) then .error .reservedOpcode
  else if rsvField w != 0 then .error .reservedBits
  else if (opField w == 1 || opField w == 2) && argField w != 0 then .error .argNonzero
  else if opField w == 3 && (argField w).extractLsb' 5 3 != 0 then .error .fwdRange
  else if opField w == 1 then .ok .enc
  else if opField w == 2 then .ok .dec
  else if opField w == 3 then .ok (.fwd (fwdOperand (argField w)))
  else .ok (.rev (argField w))

/-- The whole check of R75, applied to every command before it is issued. -/
def check (w : CmdWord) (d : List Byte) : Except RefuseReason Command :=
  match decode w with
  | .error r => .error r
  | .ok i => if Command.dataAllowed ⟨i, d⟩ then .ok ⟨i, d⟩ else .error .dataOnTableOp

/-- R71: the `OP` field of an instruction. -/
def Instr.op : Instr → BitVec 4
  | .enc => 1
  | .dec => 2
  | .fwd _ => 3
  | .rev _ => 4

/-- R73: the `ARG` field of an instruction (`v` is zero-extended). -/
def Instr.arg : Instr → Byte
  | .enc => 0
  | .dec => 0
  | .fwd v => v.setWidth 8
  | .rev c => c

/-- R70: the command word with the given fields and `RSV = 0`. -/
def commandWord (op : BitVec 4) (arg : Byte) : CmdWord := op ++ (0 : BitVec 4) ++ arg

/-- The encoder: the command word of an instruction (R70, R71, R73). -/
def encode (i : Instr) : CmdWord := commandWord i.op i.arg

/-- One row of the opcode map in match and mask form (R77). -/
structure OpcodeRow where
  mnemonic : String
  matchBits : CmdWord
  mask : CmdWord
  deriving DecidableEq, Repr

/-- R77, the four rows in its order. -/
def opcodeTable : List OpcodeRow :=
  [⟨"ENC", 0x1000, 0xFFFF⟩, ⟨"DEC", 0x2000, 0xFFFF⟩, ⟨"FWD", 0x3000, 0xFFE0⟩, ⟨"REV", 0x4000, 0xFF00⟩]

/-- R77: a row accepts a word. -/
def OpcodeRow.accepts (r : OpcodeRow) (w : CmdWord) : Bool := w &&& r.mask == r.matchBits

/-- R71: the mnemonic of an instruction. -/
def Instr.mnemonic : Instr → String
  | .enc => "ENC"
  | .dec => "DEC"
  | .fwd _ => "FWD"
  | .rev _ => "REV"

/-- A number of at most 16 bits, read as a command word; bits above 15 make it none (R70 has exactly one
length). -/
def tableWord (nbits w : Nat) : Option CmdWord :=
  if w < 2 ^ 16 ∧ w < 2 ^ nbits then some (BitVec.ofNat 16 w) else none

/-- The instruction the decoder reads from the word `w` of a row of the opcode table. -/
def decodeTableWord (nbits w : Nat) : Option Instr :=
  match tableWord nbits w with
  | none => none
  | some cw => (decode cw).toOption

end Sys2Proof
end

