-- ==== Sys2Proof/Machine/Operands.lean ====
section
/-!
DEFINITION. What the commands read: the alphabet ROM (spec/10_state.md R22 to R26), case folding and the
reverse read (spec/40_tables.md R101, R102), the cutting of a sequence into groups (spec/00_scope.md R8).
-/

namespace Sys2Proof.Machine

/-- `PAD`, the character `=` (R6, R24). -/
def padCode : Byte := 0x3D

/-- The contents of the forward table, entry by entry as R22 lists them. -/
def fwdTable : List Byte :=
  [0x41, 0x42, 0x43, 0x44, 0x45, 0x46, 0x47, 0x48, 0x49, 0x4A, 0x4B, 0x4C, 0x4D, 0x4E, 0x4F, 0x50] ++
  [0x51, 0x52, 0x53, 0x54, 0x55, 0x56, 0x57, 0x58, 0x59, 0x5A, 0x32, 0x33, 0x34, 0x35, 0x36, 0x37]

/-- `FWD[v]` (R22). The table has 32 entries, so the default is never read. -/
def fwdRom (v : Value) : Byte := fwdTable.getD v.toNat 0

/-- `fold(c)` (R101). -/
def fold (c : Byte) : Byte := if 0x61 ≤ c ∧ c ≤ 0x7A then c - 0x20 else c

/-- The three classes of the reverse read (R102). -/
inductive CharClass where
  | value (v : Value)
  | pad
  | invalid
  deriving DecidableEq, Repr

/-- R23: the value the reverse table maps an uppercase symbol code to, if it holds one. -/
def reverseTable (u : Byte) : Option Value :=
  ((List.range 32).map (BitVec.ofNat 5)).find? (fun v => fwdRom v == u)

/-- `classify(c)` (R102): the fold, the reverse table, then `PAD`. -/
def classify (c : Byte) : CharClass :=
  match reverseTable (fold c) with
  | some v => .value v
  | none => if fold c == padCode then .pad else .invalid

/-- `classify(c) = INVALID`, as a Bool. -/
def isInvalid (c : Byte) : Bool := classify c == .invalid

/-- R8, `chunks(s, k)`, with `fuel` pieces at most. -/
def chunksFuel (k : Nat) : Nat → List Byte → List (List Byte)
  | 0, _ => []
  | _ + 1, [] => []
  | fuel + 1, s => s.take k :: chunksFuel k fuel (s.drop k)

/-- R8, `chunks(s, k)` for `k > 0`: a sequence has no more pieces than units. -/
def chunks (s : List Byte) (k : Nat) : List (List Byte) := chunksFuel k s.length s

end Sys2Proof.Machine
end

