-- ==== Sys2Proof/Machine/Ops.lean ====
section
/-!
DEFINITION. The named operations: reading `IN` and writing `OUT` (spec/20_memory.md R51 to R53), completing a
command (spec/10_state.md R47), raising `InvalidCharacter` (spec/60_exceptions.md R203), capturing a command
(R46), and one step of one engine within the state. The block has no trap handler and no return from one
(R205, R206): the error is a completion, and the next issue clears it.
-/

namespace Sys2Proof.Machine

open Host (Outcome)

/-- `MemRead(IN, i, 1)` (R51); outside `0 <= i < N` it has no meaning (R53). -/
def Engine.readIn (e : Engine) (i : Nat) : Option Byte := if i < e.n then e.input[i]? else none

/-- `append(v)` (R52). -/
def Engine.append (e : Engine) (v : Byte) : Engine := { e with out := e.out ++ [v] }

/-- `append` of each unit in order (R52). -/
def Engine.appendAll (e : Engine) (vs : List Byte) : Engine := { e with out := e.out ++ vs }

/-- `MemWrite(OUT, j, 1, v)`: only at `j = len(OUT)`, where it appends (R52); elsewhere it has no meaning (R53). -/
def Engine.writeOut (e : Engine) (j : Nat) (v : Byte) : Option Engine :=
  if j = e.out.length then some (e.append v) else none

/-- `complete_ok()` (R47). -/
def Engine.completeOk (e : Engine) : Engine :=
  { e.flagsOk with outLen := e.out.length, state := .idle }

/-- `raise InvalidCharacter(i, ch)` (R203): the ONE exception of the block. -/
def Engine.raiseInvalidCharacter (e : Engine) (i : Nat) (ch : Byte) : Engine :=
  { e.flagsInvalidCharacter with
    out := [], outLen := 0, rval := 0, errIndex := i, errChar := ch, state := .idle }

/-- R46: the sequencing state a command starts in. -/
def startState : Instr → EngineState
  | .enc => .enc
  | .dec => .dchk
  | .fwd _ => .tbl
  | .rev _ => .tbl

/-- The register writes of the issue step (R46) for the word `w`, accepted as the command `c`. -/
def Engine.capture (e : Engine) (w : CmdWord) (c : Command) : Engine :=
  { e.flagsIssued (opField w) with
    errIndex := 0, errChar := 0, rval := 0, outLen := 0, out := [],
    opc := opField w, arg := argField w, input := c.data, n := c.data.length,
    i := 0, g := 0, acc := 0, nb := 0, stop := false, state := startState c.instr }

/-- The command word the engine is executing, from `OPC` and `ARG` (R28); an accepted word has `RSV = 0` (R72). -/
def Engine.word (e : Engine) : CmdWord := commandWord e.opc e.arg

/-- The engine's captured word is the instruction `i` (R28). -/
def Engine.holds (e : Engine) (i : Instr) : Bool :=
  match decode e.word with
  | .ok j => j == i
  | .error _ => false

/-- What one engine step leaves: the engine's registers, and the model faults it met (R208). -/
structure Progress where
  engine : Engine
  faults : List FaultReason
  deriving DecidableEq, Repr

/-- A step that met no model fault. -/
def Progress.clean (e : Engine) : Progress := ⟨e, []⟩

/-- Engine `k` becomes `e`. -/
def State.setEngine (s : State) (k : Nat) (e : Engine) : State := { s with engines := s.engines.set k e }

/-- A refusal mark is recorded; nothing else changes (R207). -/
def State.refuse (s : State) (k : Nat) (r : RefuseReason) : State :=
  { s with refusals := s.refusals ++ [⟨k, r⟩] }

/-- Fault marks are recorded; nothing else changes (R208). -/
def State.recordFaults (s : State) (k : Nat) (rs : List FaultReason) : State :=
  { s with faults := s.faults ++ rs.map (fun r => ⟨k, r⟩) }

/-- The host is given a reply. -/
def State.reply (s : State) (r : Reply) : State := { s with replies := s.replies ++ [r] }

/-- One step `f` of the command `i` on the engine whose turn it is. The engine must exist and must be
executing `i` (log 18); where no rule enables a step, `f` says so. -/
def State.advance (s : State) (i : Instr) (f : Engine → Outcome Progress Fault Refusal) :
    Outcome State Fault Refusal :=
  match s.engines[s.turn]? with
  | none => .fault .noSuchEngine
  | some e =>
    if e.holds i then
      match f e with
      | .next p => .next ((s.setEngine s.turn p.engine).recordFaults s.turn p.faults)
      | .fault r => .fault r
      | .refused r => .refused r
    else .fault .noEnabledStep

/-- `ACC < 2^NB` (R32). -/
def Engine.accOk (e : Engine) : Bool := decide (e.acc.toNat < 2 ^ e.nb.toNat)

/-- The invariants the step rules keep between steps (R35, with R32's), as the model checks them (R208 (b),
U19, log 10). In `IDLE` no rule reads the registers they speak of. -/
def Engine.betweenStepsOk (e : Engine) : Bool :=
  match e.state with
  | .idle => true
  | .tbl => e.accOk
  | .enc =>
    e.accOk && decide (e.nb.toNat = (8 * e.g.toNat) % 5) &&
      decide (e.out.length = 8 * (e.i / 5) + (8 * e.g.toNat) / 5)
  | .dchk => e.accOk && e.out.isEmpty && (e.input.take e.i).all (fun c => !isInvalid c)
  | .dec => e.accOk && (e.stop || decide (e.nb.toNat = (5 * e.g.toNat) % 8))

/-- R208 (b): a break of an invariant between steps is recorded, and the machine goes on. -/
def State.checkBetweenSteps (s : State) (k : Nat) : State :=
  match s.engines[k]? with
  | none => s
  | some e => if e.betweenStepsOk then s else s.recordFaults k [.invariantBroken]

end Sys2Proof.Machine
end

