-- ==== Sys2Proof/Machine/Decoder.lean ====
section
/-!
DEFINITION. The decoder: the result of `DEC` as a function (spec/42_decoder.md R150 to R160) and its engine
steps (R161 to R164).
-/

namespace Sys2Proof.Machine

open Host (Outcome)

/-- The result of `decode(T)` (R10): the bytes, or `InvalidCharacter` with the index and the code as received. -/
inductive DecodeResult where
  | ok (out : List Byte)
  | err (index : Nat) (char : Byte)
  deriving DecidableEq, Repr

/-- R150, R204: the lowest index, counted from `k`, that holds an `INVALID` code, and that code. -/
def firstInvalid : Nat → List Byte → Option (Nat × Byte)
  | _, [] => none
  | k, c :: cs => if isInvalid c then some (k, c) else firstInvalid (k + 1) cs

/-- R150, R155: a value enters the accumulator: the byte emitted, if eight bits are there, and the bits and
count that stay. -/
def accumulate (acc nb : Nat) (v : Value) : List Byte × Nat × Nat :=
  let t := (acc <<< 5) ||| v.toNat
  let n := nb + 5
  if 8 ≤ n then ([BitVec.ofNat 8 ((t >>> (n - 8)) &&& 0xFF)], t &&& ((1 <<< (n - 8)) - 1), n - 8)
  else ([], t &&& ((1 <<< n) - 1), n)

/-- R150: the bytes of the rest of a group. `PAD` ends it (R154), and the bits left are dropped (R156).
Validation has failed every `INVALID` code before this function is used; it ends the group too. -/
def decodeGroup (acc nb : Nat) : List Byte → List Byte
  | [] => []
  | c :: cs =>
    match classify c with
    | .pad => []
    | .invalid => []
    | .value v =>
      let (bs, acc', nb') := accumulate acc nb v
      bs ++ decodeGroup acc' nb' cs

/-- R150: the decoding of a validated text, group by group, each with a fresh accumulator. -/
def decodeGroups (text : List Byte) : List Byte := (chunks text 8).flatMap (decodeGroup 0 0)

/-- `decode(T)` (R150). -/
def base32Decode (text : List Byte) : DecodeResult :=
  match firstInvalid 0 text with
  | some (k, c) => .err k c
  | none => .ok (decodeGroups text)

/-- `DCHK` step (R161). -/
def Engine.dchkChar (e : Engine) (c : Byte) : Engine :=
  match classify c with
  | .invalid => e.raiseInvalidCharacter e.i c
  | .pad => { e with i := e.i + 1 }
  | .value _ => { e with i := e.i + 1 }

/-- `DCHK` end step (R162). -/
def Engine.dchkEnd (e : Engine) : Engine :=
  { e with i := 0, g := 0, acc := 0, nb := 0, stop := false, state := .dec }

/-- The case analysis of R163 on the character just read. -/
def Engine.decAccept (e : Engine) (c : Byte) : Progress :=
  if e.stop then Progress.clean e
  else
    match classify c with
    | .pad => Progress.clean { e with stop := true }
    | .value v =>
      let (bs, acc', nb') := accumulate e.acc.toNat e.nb.toNat v
      Progress.clean { e.appendAll bs with acc := BitVec.ofNat 7 acc', nb := BitVec.ofNat 3 nb' }
    | .invalid => ⟨e, [.invalidInDec]⟩

/-- The last lines of R163: the cursor and the group position advance, and a group boundary clears the
accumulator and `STOP`. -/
def Engine.decAdvance (e : Engine) : Engine :=
  let g' := BitVec.ofNat 3 ((e.g.toNat + 1) % 8)
  if g' = 0 then { e with i := e.i + 1, g := g', acc := 0, nb := 0, stop := false }
  else { e with i := e.i + 1, g := g' }

/-- `DEC` step (R163). After an `INVALID` code, which is recorded, the rest of the step is as written (log 23). -/
def Engine.decChar (e : Engine) (c : Byte) : Progress :=
  let p := e.decAccept c
  ⟨p.engine.decAdvance, p.faults⟩

/-- The step of `DEC` that `STATE`, `I` and `N` select (R239). -/
def Engine.decStep (e : Engine) : Outcome Progress Fault Refusal :=
  match e.state with
  | .dchk =>
    if e.i < e.n then
      match e.readIn e.i with
      | some c => .next (Progress.clean (e.dchkChar c))
      | none => .refused .inputAccess
    else if e.i = e.n then .next (Progress.clean e.dchkEnd)
    else .fault .noEnabledStep
  | .dec =>
    if e.i < e.n then
      match e.readIn e.i with
      | some c => .next (e.decChar c)
      | none => .refused .inputAccess
    else if e.i = e.n then .next (Progress.clean e.completeOk)
    else .fault .noEnabledStep
  | .idle => .fault .noEnabledStep
  | .enc => .fault .noEnabledStep
  | .tbl => .fault .noEnabledStep

/-- `DEC` (R150, R161 to R164). -/
def execDec (s : State) : Outcome State Fault Refusal := s.advance .dec Engine.decStep

end Sys2Proof.Machine
end

