-- ==== Sys2Proof/Machine/Encoder.lean ====
section
/-!
DEFINITION. The encoder: the result of `ENC` as a function (spec/41_encoder.md R120 to R126) and its engine
steps (R127, R128).
-/

namespace Sys2Proof.Machine

open Host (Outcome)

/-- R120, R56: the bytes of a group as one big-endian number. -/
def packBytes (grp : List Byte) : Nat := grp.foldl (fun w b => (w <<< 8) ||| b.toNat) 0

/-- R123: the number of meaningful symbols of a group of `len` bytes. -/
def groupSymbols (len : Nat) : Nat := ceilDiv (8 * len) 5

/-- The symbol for the five bits of `w` from bit `lo` up (R120). -/
def symbolAt (w lo : Nat) : Byte := fwdRom (BitVec.ofNat 5 ((w >>> lo) &&& 31))

/-- R120: the block of 8 symbols of one group, zero-filled on the right (R123) and padded. -/
def encodeGroup (grp : List Byte) : List Byte :=
  let k := groupSymbols grp.length
  let w := packBytes grp <<< (5 * k - 8 * grp.length)
  (List.range k).map (fun j => symbolAt w (5 * (k - 1 - j))) ++ List.replicate (8 - k) padCode

/-- `encode(B)` (R120). -/
def base32Encode (bytes : List Byte) : List Byte := (chunks bytes 5).flatMap encodeGroup

/-- R127: the symbols cut from the `n` bits of `t`, one, and a second if five bits are left. -/
def encSymbols (t n : Nat) : List Byte :=
  symbolAt t (n - 5) :: (if 5 ≤ n - 5 then [symbolAt t (n - 5 - 5)] else [])

/-- R127: how many of `n` bits are left after the symbols of `encSymbols`. -/
def encBitsLeft (n : Nat) : Nat := if 5 ≤ n - 5 then n - 5 - 5 else n - 5

/-- `ENC` byte step (R127): one or two symbols are appended and the remainder is kept. -/
def Engine.encByte (e : Engine) (b : Byte) : Engine :=
  let t := (e.acc.toNat <<< 8) ||| b.toNat
  let n := e.nb.toNat + 8
  { e.appendAll (encSymbols t n) with
    acc := BitVec.ofNat 7 (t &&& ((1 <<< encBitsLeft n) - 1)), nb := BitVec.ofNat 3 (encBitsLeft n),
    i := e.i + 1, g := BitVec.ofNat 3 ((e.g.toNat + 1) % 5) }

/-- R128: what the end step appends: nothing after a full group, else the zero-filled last symbol and the
padding. `NB` is 1 to 4 here in every run; at `NB` or `G` 6 or 7 a subtraction stops at 0 (log 25). -/
def Engine.encTail (e : Engine) : List Byte :=
  if e.g = 0 then []
  else symbolAt (e.acc.toNat <<< (5 - e.nb.toNat)) 0 ::
    List.replicate (8 - ceilDiv (8 * e.g.toNat) 5) padCode

/-- `ENC` end step (R128). -/
def Engine.encEnd (e : Engine) : Engine := (e.appendAll e.encTail).completeOk

/-- The step of `ENC` that `STATE`, `I` and `N` select (R239). -/
def Engine.encStep (e : Engine) : Outcome Progress Fault Refusal :=
  match e.state with
  | .enc =>
    if e.i < e.n then
      match e.readIn e.i with
      | some b => .next (Progress.clean (e.encByte b))
      | none => .refused .inputAccess
    else if e.i = e.n then .next (Progress.clean e.encEnd)
    else .fault .noEnabledStep
  | .idle => .fault .noEnabledStep
  | .dchk => .fault .noEnabledStep
  | .dec => .fault .noEnabledStep
  | .tbl => .fault .noEnabledStep

/-- `ENC` (R120, R127, R128). -/
def execEnc (s : State) : Outcome State Fault Refusal := s.advance .enc Engine.encStep

end Sys2Proof.Machine
end

