-- ==== Sys2Proof/Machine/Tables.lean ====
section
/-!
DEFINITION. The two table reads, `FWD` and `REV` (spec/40_tables.md R100, R103, R107).
-/

namespace Sys2Proof.Machine

open Host (Outcome)

/-- R100: `RVAL <- FWD[v]; complete_ok()`. -/
def Engine.fwdStep (v : Value) (e : Engine) : Engine := { e with rval := fwdRom v }.completeOk

/-- R103: the three outcomes of the reverse read. -/
def Engine.revStep (c : Byte) (e : Engine) : Engine :=
  match classify c with
  | .value v => { e with rval := v.setWidth 8 }.completeOk
  | .pad => { e with rval := 0x20 }.completeOk
  | .invalid => e.raiseInvalidCharacter 0 c

/-- The one step of a table read is enabled in state `TBL` (R107). -/
def tableStep (f : Engine → Engine) (e : Engine) : Outcome Progress Fault Refusal :=
  match e.state with
  | .tbl => .next (Progress.clean (f e))
  | .idle => .fault .noEnabledStep
  | .enc => .fault .noEnabledStep
  | .dchk => .fault .noEnabledStep
  | .dec => .fault .noEnabledStep

/-- `FWD v` (R100). -/
def execFwd (v : Value) (s : State) : Outcome State Fault Refusal :=
  s.advance (.fwd v) (tableStep (Engine.fwdStep v))

/-- `REV c` (R103). -/
def execRev (c : Byte) (s : State) : Outcome State Fault Refusal :=
  s.advance (.rev c) (tableStep (Engine.revStep c))

end Sys2Proof.Machine
end

