-- ==== Sys2Proof/Machine/Dispatch.lean ====
section
/-!
DEFINITION. One arm per instruction: the engine step of that command, on the engine whose turn it is.
-/

namespace Sys2Proof.Machine

def exec (i : Instr) (s : State) : Host.Outcome State Fault Refusal :=
  match i with
  | .enc => Sys2Proof.Machine.execEnc s
  | .dec => Sys2Proof.Machine.execDec s
  | .fwd v => Sys2Proof.Machine.execFwd v s
  | .rev c => Sys2Proof.Machine.execRev c s

end Sys2Proof.Machine
end

