-- ==== Sys2Proof/Machine/HostPort.lean ====
section
/-!
DEFINITION. The host's steps: issuing a command (spec/10_state.md R46), reading the registers and `OUT`
(R41, R48, spec/20_memory.md R53), reset (spec/70_reset_and_hazards.md R230).
-/

namespace Sys2Proof.Machine

open Host (Outcome)

/-- R46, R75, R235: why a command presented to an engine is refused, or the command as accepted. The engine is
asked first whether it is busy (log 8), then the check of R75 is made, then the capacity. -/
def Engine.acceptCommand (cfg : Config) (e : Engine) (w : CmdWord) (d : List Byte) : Except RefuseReason Command :=
  if e.busy then .error .busy
  else
    match check w d with
    | .error r => .error r
    | .ok c => if cfg.fits d.length then .ok c else .error .capacity

/-- The issue step (R46): the engine captures the command, or a mark is recorded and no register changes. -/
def State.issue (s : State) (k : Nat) (w : CmdWord) (d : List Byte) : Outcome State Fault Refusal :=
  match s.engines[k]? with
  | none => .fault .noSuchEngine
  | some e =>
    match e.acceptCommand s.config w d with
    | .error r => .next (s.refuse k r)
    | .ok c => .next (s.setEngine k (e.capture w c))

/-- The registers the host can read, by number (R36 to R41), as numbers; 5 and above have no meaning. -/
def Engine.readReg (e : Engine) (r : Nat) : Option Nat :=
  match r with
  | 0 => some e.status.toNat
  | 1 => some e.errIndex
  | 2 => some e.errChar.toNat
  | 3 => some e.rval.toNat
  | 4 => some e.outLen
  | _ => none

/-- `OUT[j]` as the host can read it: once `DONE = 1`, for `j < OUT_LEN` (R41, R53, log 13). -/
def Engine.readOut (e : Engine) (j : Nat) : Option Byte :=
  if e.done ∧ j < e.outLen then e.out[j]? else none

/-- A host read of a register: the value is returned, or the access is refused (R41). -/
def State.hostReadReg (s : State) (k r : Nat) : Outcome State Fault Refusal :=
  match s.engines[k]? with
  | none => .fault .noSuchEngine
  | some e =>
    match e.readReg r with
    | some v => .next (s.reply (.reg k r v))
    | none => .next (s.refuse k .access)

/-- A host read of a unit of `OUT`: the unit is returned, or the access is refused (R53). -/
def State.hostReadOut (s : State) (k j : Nat) : Outcome State Fault Refusal :=
  match s.engines[k]? with
  | none => .fault .noSuchEngine
  | some e =>
    match e.readOut j with
    | some b => .next (s.reply (.out k j b))
    | none => .next (s.refuse k .access)

/-- Reset (R230, R231): every register of every engine takes its value of R49; the marks stay. -/
def State.hostReset (s : State) : State := { s with engines := s.engines.map (fun _ => Engine.reset) }

end Sys2Proof.Machine
end

