-- ==== Sys2Proof/Machine/EngineTurn.lean ====
section
/-!
DEFINITION. The turn of an engine (spec/70_reset_and_hazards.md R239), and one item of the agenda.
-/

namespace Sys2Proof.Machine

open Host (Outcome)

/-- What is done after an engine's step: the invariants between steps are checked (R208 (b)). -/
def afterTurn (k : Nat) : Outcome State Fault Refusal → Outcome State Fault Refusal
  | .next s => .next (s.checkBetweenSteps k)
  | .fault r => .fault r
  | .refused r => .refused r

/-- The turn of engine `k`. An `IDLE` engine has no step and the turn passes (U20, log 5). Any other runs the
step of the command its `OPC` and `ARG` hold. -/
def State.engineTurn (s : State) (k : Nat) : Outcome State Fault Refusal :=
  match s.engines[k]? with
  | none => .fault .noSuchEngine
  | some e =>
    if e.busy then
      match decode e.word with
      | .error _ => .fault .noEnabledStep
      | .ok i => afterTurn k (exec i { s with turn := k })
    else .next s

/-- One item of the agenda (R20). -/
def State.perform (s : State) : Event → Outcome State Fault Refusal
  | .issue k w d => s.issue k w d
  | .readReg k r => s.hostReadReg k r
  | .readOut k j => s.hostReadOut k j
  | .reset => .next s.hostReset
  | .run k => s.engineTurn k

/-- The lowest-numbered engine that has a step, if any (log 4). -/
def State.firstBusy (s : State) : Option Nat := s.engines.findIdx? Engine.busy

/-- The next thing that happens: the first item of the agenda, else the step of a busy engine (log 4), else
nothing (U20, log 6). -/
def State.stepOnce (s : State) : Outcome State Fault Refusal :=
  match s.agenda with
  | ev :: rest => State.perform { s with agenda := rest } ev
  | [] =>
    match s.firstBusy with
    | some k => s.engineTurn k
    | none => .fault .idle

/-- The host hands the command word `w`, without data, to engine 0, made `IDLE` first; the engine's turn comes
next (log 14). -/
def State.loadWord (s : State) (w : CmdWord) : State :=
  match s.engines[0]? with
  | none => { s with agenda := .run 0 :: s.agenda }
  | some e =>
    let e0 : Engine := { e with state := .idle }
    match e0.acceptCommand s.config w [] with
    | .error r => { (s.setEngine 0 e0).refuse 0 r with agenda := .run 0 :: s.agenda }
    | .ok c => { s.setEngine 0 (e0.capture w c) with agenda := .run 0 :: s.agenda }

end Sys2Proof.Machine
end

