-- ==== Sys2Proof/Machine/Step.lean ====
section
/-!
DEFINITION. One step of the block, and where its next instruction is placed.
-/

namespace Sys2Proof.Machine

/-- One step of the host or of one engine (R9, R20). -/
def step (s : State) : Host.Outcome State Fault Refusal := s.stepOnce

/-- `s` with the command word `w` of the opcode table issued to engine 0, whose turn is next (log 14). A number
that is no 16-bit word stands for the reserved word 0x0000, which is refused (R76). -/
def State.withFetchWord (s : State) (nbits w : Nat) : State := s.loadWord ((tableWord nbits w).getD 0)

end Sys2Proof.Machine
end

