-- ==== Sys2Proof/Machine/Assembler.lean ====
section
/-!
DEFINITION. The assembler and the disassembler (spec/30_encoding.md R78 to R81). Text is a sequence of 8-bit
character codes (R8); one line holds one command. What the rules leave open is in log 16, 17 and 26.
-/

namespace Sys2Proof.Machine

/-- A line of text, or a piece of one. -/
abbrev Text := List Byte

/-- The codes of the characters of a string (R8). -/
def codes (s : String) : Text := s.toList.map (fun c => BitVec.ofNat 8 c.toNat)

/-- A blank: a space or a tab. -/
def isBlank (c : Byte) : Bool := c == 0x20 || c == 0x09

/-- The text after its leading blanks. -/
def skipBlanks (t : Text) : Text := t.dropWhile isBlank

/-- Nothing is left on the line but blanks and a comment (R78). -/
def endOfLine (t : Text) : Bool :=
  match skipBlanks t with
  | [] => true
  | c :: _ => c == 0x3B

/-- The value of a digit in a base of at most 16; letters of either case. -/
def digitValue (base : Nat) (c : Byte) : Option Nat :=
  let u := fold c
  let d :=
    if 0x30 ≤ u ∧ u ≤ 0x39 then u.toNat - 0x30
    else if 0x41 ≤ u ∧ u ≤ 0x46 then u.toNat - 0x41 + 10
    else base
  if d < base then some d else none

/-- The digits at the front of a text: their value after `acc`, how many there are after `count`, and what
follows them. -/
def readDigits (base : Nat) : Nat → Nat → Text → Nat × Nat × Text
  | acc, count, [] => (acc, count, [])
  | acc, count, c :: r =>
    match digitValue base c with
    | some d => readDigits base (acc * base + d) (count + 1) r
    | none => (acc, count, c :: r)

/-- `<num>` in one base: at least one digit. -/
def readNumIn (base : Nat) (t : Text) : Option (Nat × Text) :=
  let (v, count, r) := readDigits base 0 0 t
  if count = 0 then none else some (v, r)

/-- `<num>` (R78): decimal, or hexadecimal after `0x`. -/
def readNum (t : Text) : Option (Nat × Text) :=
  if t.take 2 = codes "0x" then readNumIn 16 (t.drop 2) else readNumIn 10 t

/-- The units of a brace list up to its closing brace (R79), with `fuel` units at most. -/
def readUnits : Nat → Text → Except AsmError (List Byte × Text)
  | 0, _ => .error .malformed
  | fuel + 1, t =>
    match readNum (skipBlanks t) with
    | none => .error .malformed
    | some (v, r) =>
      if 255 < v then .error .range
      else
        match skipBlanks r with
        | [] => .error .malformed
        | c :: r' =>
          if c = 0x7D then .ok ([BitVec.ofNat 8 v], r')
          else if c = 0x2C then
            match readUnits fuel r' with
            | .error e => .error e
            | .ok (us, r'') => .ok (BitVec.ofNat 8 v :: us, r'')
          else .error .malformed

/-- What follows the opening brace of a brace list (R79); the list may be empty. -/
def readBraceList (t : Text) : Except AsmError (List Byte × Text) :=
  match skipBlanks t with
  | [] => .error .malformed
  | c :: r => if c = 0x7D then .ok ([], r) else readUnits t.length t

/-- A character code that stands for itself in quotes: an ASCII code (R8). -/
def isAscii (c : Byte) : Bool := decide (c.toNat < 0x80)

/-- One more code before those of a string. -/
def consCode (c : Byte) : Except AsmError (List Byte × Text) → Except AsmError (List Byte × Text)
  | .ok (us, r) => .ok (c :: us, r)
  | .error e => .error e

/-- What follows the opening quote of a string (R79), with its three escapes. -/
def readString : Text → Except AsmError (List Byte × Text)
  | [] => .error .malformed
  | c :: r =>
    if c = 0x22 then .ok ([], r)
    else if c = 0x5C then
      match r with
      | [] => .error .malformed
      | k :: r1 =>
        if k = 0x22 ∨ k = 0x5C then consCode k (readString r1)
        else if k = 0x78 then
          match r1 with
          | h :: l :: r2 =>
            match digitValue 16 h, digitValue 16 l with
            | some a, some b => consCode (BitVec.ofNat 8 (16 * a + b)) (readString r2)
            | _, _ => .error .malformed
          | _ => .error .malformed
        else .error .malformed
    else if isAscii c then consCode c (readString r)
    else .error .malformed

/-- `<data>` (R79): a brace list or a string. -/
def readData (t : Text) : Except AsmError (List Byte × Text) :=
  match skipBlanks t with
  | [] => .error .malformed
  | c :: r =>
    if c = 0x7B then readBraceList r
    else if c = 0x22 then readString r
    else .error .malformed

/-- `<char-or-num>` (R78): a quoted ASCII character other than the quote and the backslash, or a number. -/
def readCharOrNum (t : Text) : Option (Nat × Text) :=
  match t with
  | q :: c :: q' :: r =>
    if q = 0x27 then
      if q' = 0x27 ∧ isAscii c ∧ c ≠ 0x27 ∧ c ≠ 0x5C then some (c.toNat, r) else none
    else readNum t
  | _ => readNum t

/-- An operand that must be the last thing on its line. -/
def lastOperand {α : Type} (f : α → SourceLine) : Except AsmError (α × Text) → Except AsmError SourceLine
  | .error e => .error e
  | .ok (a, r) => if endOfLine r then .ok (f a) else .error .malformed

/-- A number read, or a malformed line. -/
def orMalformed {α : Type} : Option α → Except AsmError α
  | none => .error .malformed
  | some a => .ok a

/-- The operands of `.word` (R78): a number, then data or nothing. -/
def parseWord (t : Text) : Except AsmError SourceLine :=
  match readNum (skipBlanks t) with
  | none => .error .malformed
  | some (n, r) =>
    if endOfLine r then .ok (.word n [])
    else if (r.take 1).all isBlank then lastOperand (.word n) (readData r)
    else .error .malformed

/-- One line (R78): a case-insensitive mnemonic, a blank, and the operand. -/
def parseLine (line : Text) : Except AsmError SourceLine :=
  let t := skipBlanks line
  let m := (t.takeWhile (fun c => !isBlank c)).map fold
  let r := t.dropWhile (fun c => !isBlank c)
  if m = codes "ENC" then lastOperand .enc (readData r)
  else if m = codes "DEC" then lastOperand .dec (readData r)
  else if m = codes "FWD" then lastOperand .fwd (orMalformed (readNum (skipBlanks r)))
  else if m = codes "REV" then lastOperand .rev (orMalformed (readCharOrNum (skipBlanks r)))
  else if m = codes ".WORD" then parseWord r
  else .error .malformed

/-- The command a line stands for (R80). `.word` is not checked. -/
def assemble : SourceLine → Except AsmError (CmdWord × List Byte)
  | .enc d => .ok (0x1000, d)
  | .dec d => .ok (0x2000, d)
  | .fwd v => if v ≤ 31 then .ok (0x3000 ||| BitVec.ofNat 16 v, []) else .error .range
  | .rev c => if c ≤ 255 then .ok (0x4000 ||| BitVec.ofNat 16 c, []) else .error .range
  | .word n d => if n ≤ 0xFFFF then .ok (BitVec.ofNat 16 n, d) else .error .range

/-- A line of text, assembled. -/
def assembleLine (line : Text) : Except AsmError (CmdWord × List Byte) :=
  match parseLine line with
  | .error e => .error e
  | .ok l => assemble l

/-- A program is a straight-line list of commands (R81). A program with a line that is rejected is rejected as a
whole, with the error of its first rejected line: R80 speaks only of a line (DESIGN CHOICE, log 26). -/
def assembleProgram : List Text → Except AsmError (List (CmdWord × List Byte))
  | [] => .ok []
  | l :: ls =>
    match assembleLine l, assembleProgram ls with
    | .ok c, .ok cs => .ok (c :: cs)
    | .error e, _ => .error e
    | .ok _, .error e => .error e

/-- R80: the line the disassembler prints for a command: its own form if it is accepted, else `.word`. -/
def disassemble (w : CmdWord) (d : List Byte) : SourceLine :=
  match check w d with
  | .error _ => .word w.toNat d
  | .ok c =>
    match c.instr with
    | .enc => .enc d
    | .dec => .dec d
    | .fwd v => .fwd v.toNat
    | .rev u => .rev u.toNat

/-- A hexadecimal digit, capital. -/
def hexDigit (d : Nat) : Byte := BitVec.ofNat 8 (if d < 10 then 0x30 + d else 0x37 + d)

/-- The last `k` hexadecimal digits of a number. -/
def hexDigits : Nat → Nat → Text
  | 0, _ => []
  | k + 1, n => hexDigits k (n / 16) ++ [hexDigit (n % 16)]

/-- `0x` and `k` hexadecimal digits. -/
def printHex (k n : Nat) : Text := codes "0x" ++ hexDigits k n

/-- A decimal number. -/
def printDec (n : Nat) : Text := (Nat.toDigits 10 n).map (fun c => BitVec.ofNat 8 c.toNat)

/-- The units of a brace list, separated by commas. -/
def printUnits : List Byte → Text
  | [] => []
  | [u] => printHex 2 u.toNat
  | u :: us => printHex 2 u.toNat ++ codes ", " ++ printUnits us

/-- A brace list (R79). -/
def printData (d : List Byte) : Text := (0x7B : Byte) :: printUnits d ++ [0x7D]

/-- R80: `REV`'s operand: a quoted character when it is printable ASCII other than the quote and the backslash. -/
def printChar (c : Nat) : Text :=
  if 0x20 ≤ c ∧ c ≤ 0x7E ∧ c ≠ 0x27 ∧ c ≠ 0x5C then [0x27, BitVec.ofNat 8 c, 0x27] else printHex 2 c

/-- The text of a line (R80). -/
def printLine : SourceLine → Text
  | .enc d => codes "ENC " ++ printData d
  | .dec d => codes "DEC " ++ printData d
  | .fwd v => codes "FWD " ++ printDec v
  | .rev c => codes "REV " ++ printChar c
  | .word n [] => codes ".word " ++ printHex 4 n
  | .word n (u :: us) => codes ".word " ++ printHex 4 n ++ codes " " ++ printData (u :: us)

end Sys2Proof.Machine
end

