-- ==== Sys2Proof/Safety.lean ====
section
/-!
DEFINITION. What counts as a safe run, in the terms claims use: the marks, the end of a run and its observation
(spec/70_reset_and_hazards.md R240), and the invariant of a reachable state.
-/

namespace Sys2Proof.Machine

/-- No refusal mark and no fault mark is set (R240). -/
def State.unmarked (s : State) : Bool := s.refusals.isEmpty && s.faults.isEmpty

/-- Every engine is `IDLE`. -/
def State.quiet (s : State) : Bool := s.engines.all (fun e => !e.busy)

/-- An item of the agenda that issues a command. -/
def Event.isIssue : Event → Bool
  | .issue _ _ _ => true
  | .readReg _ _ => false
  | .readOut _ _ => false
  | .reset => false
  | .run _ => false

/-- An item of the agenda that concerns engine `k`: an access or a turn of it, or a reset of all engines. -/
def Event.concerns (k : Nat) : Event → Bool
  | .issue e _ _ => e == k
  | .readReg e _ => e == k
  | .readOut e _ => e == k
  | .reset => true
  | .run e => e == k

/-- A reply to a read of engine `k`. -/
def Reply.concerns (k : Nat) : Reply → Bool
  | .reg e _ _ => e == k
  | .out e _ _ => e == k

/-- The engine whose turn it is, `e`, has captured the word with fields `op` and `arg`. -/
def State.TurnOf (s : State) (e : Engine) (op : BitVec 4) (arg : Byte) : Prop :=
  s.engines[s.turn]? = some e ∧ e.opc = op ∧ e.arg = arg

/-- The end of a run (R240): every command issued, every engine `IDLE`, no mark set. -/
def State.ended (s : State) : Bool := s.agenda.all (fun ev => !ev.isIssue) && s.quiet && s.unmarked

/-- What the observation of a run holds for one command (R240, log 22): registers 0 to 4 and
`OUT[0 .. OUT_LEN)`. -/
structure Observation where
  status : BitVec 16
  errIndex : Nat
  errChar : Byte
  rval : Byte
  outLen : Nat
  out : List Byte
  deriving DecidableEq, Repr

/-- R240: what an engine shows. -/
def Engine.observe (e : Engine) : Observation :=
  { status := e.status, errIndex := e.errIndex, errChar := e.errChar, rval := e.rval, outLen := e.outLen,
    out := e.out.take e.outLen }

/-- One command of a run, in issue order: the engine it was issued to, and what was observed when it completed. -/
structure Entry where
  engine : Nat
  seen : Option Observation
  deriving DecidableEq, Repr

/-- The pending entry of engine `k` is completed with what the engine shows. -/
def fillEntry (k : Nat) (o : Observation) : List Entry → List Entry
  | [] => []
  | x :: xs => if x.engine = k ∧ x.seen = none then ⟨k, some o⟩ :: xs else x :: fillEntry k o xs

/-- What the step from `s` to `t` adds to the entries for engine `k`: an issue opens an entry and a completion
fills it (R240). -/
def noteEngine (s t : State) (l : List Entry) (k : Nat) : List Entry :=
  match s.engines[k]?, t.engines[k]? with
  | some e, some f =>
    if !e.busy && f.busy then l ++ [⟨k, none⟩]
    else if e.busy && !f.busy then fillEntry k f.observe l
    else l
  | _, _ => l

/-- The entries after the step from `s` to `t`. A command that a reset abandons has no observation (R240). -/
def noteStep (s t : State) (l : List Entry) : List Entry :=
  if s.agenda.head? = some .reset then l.filter (fun x => x.seen.isSome)
  else (List.range s.engines.length).foldl (noteEngine s t) l

/-- `k` steps with the observation of the run (R240), stopping where the machine stops. -/
def runObserved : Nat → State → List Entry → Host.Outcome State Fault Refusal × List Entry
  | 0, s, l => (.next s, l)
  | k + 1, s, l =>
    match step s with
    | .next t => runObserved k t (noteStep s t l)
    | .fault r => (.fault r, l)
    | .refused r => (.refused r, l)

/-- What holds of an engine in its sequencing state between steps of a run (R27 to R35). -/
def Engine.PhaseInv (e : Engine) : Prop :=
  match e.state with
  | .idle => e.outLen = e.out.length ∧ e.out.length ≤ 8 * ceilDiv e.n 5
  | .tbl => (∃ i, decode e.word = .ok i ∧ (i.takesData = false)) ∧ e.input = [] ∧ e.out = []
  | .enc =>
    decode e.word = .ok .enc ∧ e.g.toNat = e.i % 5 ∧ e.nb.toNat = (8 * e.g.toNat) % 5 ∧
      e.out.length = 8 * (e.i / 5) + (8 * e.g.toNat) / 5
  | .dchk => decode e.word = .ok .dec ∧ e.out = [] ∧ ∀ c ∈ e.input.take e.i, classify c ≠ .invalid
  | .dec =>
    decode e.word = .ok .dec ∧ e.g.toNat = e.i % 8 ∧ (e.stop = false → e.nb.toNat = (5 * e.g.toNat) % 8) ∧
      e.out.length ≤ (5 * e.i) / 8 ∧ ∀ c ∈ e.input, classify c ≠ .invalid

/-- What holds of an engine between steps of a run: its cursor and length, its accumulator (R32), its status and
result registers (R36 to R40, R62), and its sequencing state. -/
def Engine.Inv (c : Config) (e : Engine) : Prop :=
  e.n = e.input.length ∧ c.fits e.n = true ∧ e.i ≤ e.n ∧ e.acc.toNat < 2 ^ e.nb.toNat ∧
  (e.err = true → e.done = true ∧ e.out = [] ∧ e.rval = 0) ∧
  (e.err = false → e.errIndex = 0 ∧ e.errChar = 0) ∧
  e.errcode = (if e.err then 1 else 0) ∧ e.lastop.toNat ≤ 4 ∧ e.errIndex ≤ e.n ∧ e.rval.toNat < 128 ∧
  (e.busy = true → e.done = false ∧ e.rval = 0 ∧ e.outLen = 0 ∧ e.lastop = e.opc) ∧
  e.PhaseInv

/-- The invariant of a reachable state. -/
def State.Inv (s : State) : Prop :=
  s.config.wf = true ∧ s.engines.length = s.config.numEngines ∧ ∀ e ∈ s.engines, e.Inv s.config

end Sys2Proof.Machine
end

