-- ==== Sys2Proof/Certificates/Slice0/Obligations.lean ====
section
/-!
DEFINITION. The statements about the block, one per obligation. Each docstring says which rules of spec/ it
formalises; a clause that rests on the model's own choice names the log entry. The agenda, the turn, the replies
and the marks as lists are the model's form throughout (log 3, 7, 19).
-/

open Sys2Proof Sys2Proof.Machine

/-! ## Encoding -/

/-- Decoding the encoded word of an instruction gives it back, and an accepted word is the encoding of what it
decodes to (30_encoding.md R70, R71, R73): no bit is dropped and no second spelling exists. -/
def Obligations.EncodeAndDecodeAgree : Prop :=
  (∀ i : Instr, decode (encode i) = .ok i) ∧ ∀ (w : CmdWord) (i : Instr), decode w = .ok i → encode i = w

/-- 30_encoding.md R77: a word is accepted as a mnemonic exactly when it matches that row, the free fields are
bits [4:0] and [7:0], and the rows are disjoint. -/
def Obligations.OpcodeMapMatchesAndMasks : Prop :=
  (∀ w : CmdWord, decode w = .ok .enc ↔ w &&& 0xFFFF = 0x1000) ∧
  (∀ w : CmdWord, decode w = .ok .dec ↔ w &&& 0xFFFF = 0x2000) ∧
  (∀ w : CmdWord, (∃ v, decode w = .ok (.fwd v)) ↔ w &&& 0xFFE0 = 0x3000) ∧
  (∀ w : CmdWord, (∃ c, decode w = .ok (.rev c)) ↔ w &&& 0xFF00 = 0x4000) ∧
  (∀ (w : CmdWord) (v : Value), decode w = .ok (.fwd v) → v = w.extractLsb' 0 5) ∧
  (∀ (w : CmdWord) (c : Byte), decode w = .ok (.rev c) → c = w.extractLsb' 0 8) ∧
  opcodeTable.Pairwise (fun r q => ∀ w, ¬(r.accepts w = true ∧ q.accepts w = true))

/-- The check of 30_encoding.md R75 in numbers: the checks are applied in the order written, and the first that
fails names the reason. -/
def Obligations.CheckNamesTheFirstFailure : Prop :=
  ∀ (w : CmdWord) (d : List Byte),
    check w d =
      (if w.toNat / 4096 = 0 ∨ 5 ≤ w.toNat / 4096 then .error .reservedOpcode
       else if w.toNat / 256 % 16 ≠ 0 then .error .reservedBits
       else if w.toNat / 4096 ≤ 2 ∧ w.toNat % 256 ≠ 0 then .error .argNonzero
       else if w.toNat / 4096 = 3 ∧ 32 ≤ w.toNat % 256 then .error .fwdRange
       else if 3 ≤ w.toNat / 4096 ∧ d ≠ [] then .error .dataOnTableOp
       else if w.toNat / 4096 = 1 then .ok ⟨.enc, d⟩
       else if w.toNat / 4096 = 2 then .ok ⟨.dec, d⟩
       else if w.toNat / 4096 = 3 then .ok ⟨.fwd (BitVec.ofNat 5 w.toNat), d⟩
       else .ok ⟨.rev (BitVec.ofNat 8 w.toNat), d⟩)

/-- 30_encoding.md R76: exactly 290 command words are accepted. -/
def Obligations.AcceptedWordsNumber290 : Prop :=
  (Finset.univ.filter (fun w : BitVec 16 => (decode w).toOption.isSome = true)).card = 290

/-- Words written out from 30_encoding.md R77 and 95_test_vectors.md 2.5, decoded or refused by name. -/
def Obligations.SampleWordsDecode : Prop :=
  decode 0x1000 = .ok .enc ∧ decode 0x2000 = .ok .dec ∧ decode 0x301E = .ok (.fwd 30) ∧
  decode 0x4079 = .ok (.rev 0x79) ∧ decode 0x5000 = .error .reservedOpcode ∧
  decode 0x4F41 = .error .reservedBits ∧ decode 0x1001 = .error .argNonzero ∧ decode 0x3020 = .error .fwdRange

/-- 30_encoding.md R80: what the assembler gives for each form of line, and the numbers it rejects. -/
def Obligations.AssemblerGivesTheEncodedCommand : Prop :=
  (∀ d, assemble (.enc d) = .ok (encode .enc, d)) ∧ (∀ d, assemble (.dec d) = .ok (encode .dec, d)) ∧
  (∀ v : Value, assemble (.fwd v.toNat) = .ok (encode (.fwd v), [])) ∧
  (∀ c : Byte, assemble (.rev c.toNat) = .ok (encode (.rev c), [])) ∧
  (∀ (w : CmdWord) (d : List Byte), assemble (.word w.toNat d) = .ok (w, d)) ∧
  (∀ n, 31 < n → assemble (.fwd n) = .error .range) ∧ (∀ n, 255 < n → assemble (.rev n) = .error .range) ∧
  (∀ n d, 0xFFFF < n → assemble (.word n d) = .error .range)

/-- The text the disassembler prints for any command, accepted or refused, assembles to that command again
(30_encoding.md R78 to R80; the printed form of the data is the model's choice, log 17). -/
def Obligations.PrintedCommandAssemblesBack : Prop :=
  ∀ (w : CmdWord) (d : List Byte), assembleLine (printLine (disassemble w d)) = .ok (w, d)

/-! ## The alphabet ROM and the reverse read -/

/-- 10_state.md R22: the contents of the forward table as a formula. -/
def Obligations.ForwardTableContents : Prop :=
  ∀ v : Value, (fwdRom v).toNat = if v.toNat ≤ 25 then 0x41 + v.toNat else 0x32 + (v.toNat - 26)

/-- 10_state.md R26: the tables are mutual inverses on the 32 symbols, and no other code has an entry. -/
def Obligations.TablesAreMutualInverses : Prop :=
  (∀ v u : Value, fwdRom v = fwdRom u → v = u) ∧ (∀ v : Value, reverseTable (fwdRom v) = some v) ∧
  ∀ (c : Byte) (v : Value), reverseTable c = some v → fwdRom v = c

/-- 40_tables.md R101: folding moves the 26 lowercase letters down by 0x20 and nothing else. -/
def Obligations.FoldChangesOnlyLowercaseLetters : Prop :=
  ∀ c : Byte, (fold c).toNat = if 0x61 ≤ c.toNat ∧ c.toNat ≤ 0x7A then c.toNat - 0x20 else c.toNat

/-- 40_tables.md R102: the class of each of the 256 codes, range by range, and how many codes each class has. -/
def Obligations.ReverseReadClassifiesEveryCode : Prop :=
  (∀ c : Byte, classify c =
    if 0x32 ≤ c.toNat ∧ c.toNat ≤ 0x37 then .value (BitVec.ofNat 5 (c.toNat - 0x32 + 26))
    else if c.toNat = 0x3D then .pad
    else if 0x41 ≤ c.toNat ∧ c.toNat ≤ 0x5A then .value (BitVec.ofNat 5 (c.toNat - 0x41))
    else if 0x61 ≤ c.toNat ∧ c.toNat ≤ 0x7A then .value (BitVec.ofNat 5 (c.toNat - 0x61))
    else .invalid) ∧
  (Finset.univ.filter (fun c : BitVec 8 => classify c = .invalid)).card = 197 ∧
  (Finset.univ.filter (fun c : BitVec 8 => classify c = .pad)).card = 1 ∧
  (Finset.univ.filter (fun c : BitVec 8 => classify c ≠ .invalid ∧ classify c ≠ .pad)).card = 58

/-- 40_tables.md R105: `REV` undoes `FWD`, `FWD` undoes `REV` up to folding, folding does not change the class,
and `FWD` never gives `PAD` or a lowercase code. -/
def Obligations.TableReadsUndoEachOther : Prop :=
  (∀ v : Value, classify (fwdRom v) = .value v) ∧ (∀ c : Byte, classify c = classify (fold c)) ∧
  (∀ (c : Byte) (v : Value), classify c = .value v → fwdRom v = fold c) ∧
  (∀ v : Value, fwdRom v ≠ padCode ∧ ¬(0x61 ≤ (fwdRom v).toNat ∧ (fwdRom v).toNat ≤ 0x7A))

/-! ## What one engine step of each instruction does -/

/-- `FWD` (40_tables.md R100): in its one step, with the word 0x3000 | v captured, `RVAL` takes the symbol, the
command completes, and nothing else of the machine changes. -/
def Obligations.FwdCompletesWithTheSymbol : Prop :=
  ∀ (s : State) (e : Engine) (v : Value), s.TurnOf e 3 (v.setWidth 8) → e.state = .tbl →
    exec (.fwd v) s = .next { s with
      engines := s.engines.set s.turn { e with
        rval := BitVec.ofNat 8 (if v.toNat ≤ 25 then 0x41 + v.toNat else 0x32 + (v.toNat - 26)),
        outLen := e.out.length, done := true, err := false, errcode := 0, state := .idle } }

/-- `REV` (40_tables.md R103): the three outcomes of its one step, by the class of the code. -/
def Obligations.RevCompletesByClass : Prop :=
  ∀ (s : State) (e : Engine) (c : Byte), s.TurnOf e 4 c → e.state = .tbl →
    exec (.rev c) s = .next { s with
      engines := s.engines.set s.turn
        (match classify c with
         | .value v => { e with rval := BitVec.ofNat 8 v.toNat, outLen := e.out.length, done := true,
                                err := false, errcode := 0, state := .idle }
         | .pad => { e with rval := 0x20, outLen := e.out.length, done := true, err := false, errcode := 0,
                            state := .idle }
         | .invalid => { e with out := [], outLen := 0, rval := 0, errIndex := 0, errChar := c, errcode := 1,
                                err := true, done := true, state := .idle }) }

/-- `ENC` byte step (41_encoder.md R127) in numbers: the accumulator and the byte make `t`, one symbol is cut
from the top, a second if five bits are left, and the rest stays. Nothing else changes. -/
def Obligations.EncByteStepEmitsAndCarries : Prop :=
  ∀ (s : State) (e : Engine) (b : Byte), s.TurnOf e 1 0 → e.state = .enc → e.i < e.n → e.input[e.i]? = some b →
    exec .enc s = .next { s with
      engines := s.engines.set s.turn { e with
        out := e.out ++ [fwdRom (BitVec.ofNat 5 ((e.acc.toNat * 256 + b.toNat) / 2 ^ (e.nb.toNat + 3)))] ++
          (if 2 ≤ e.nb.toNat then
            [fwdRom (BitVec.ofNat 5 ((e.acc.toNat * 256 + b.toNat) / 2 ^ (e.nb.toNat - 2)))] else []),
        acc := BitVec.ofNat 7 ((e.acc.toNat * 256 + b.toNat) %
          2 ^ (if 2 ≤ e.nb.toNat then e.nb.toNat - 2 else e.nb.toNat + 3)),
        nb := BitVec.ofNat 3 (if 2 ≤ e.nb.toNat then e.nb.toNat - 2 else e.nb.toNat + 3),
        i := e.i + 1, g := BitVec.ofNat 3 ((e.g.toNat + 1) % 5) } }

/-- The table of 41_encoder.md R127: by the position in the group, how many symbols a byte emits and how many
bits stay, and the carry is 0 whenever the group ends. -/
def Obligations.EncByteStepByPosition : Prop :=
  ∀ (c : Config) (e : Engine) (b : Byte), e.Inv c → e.state = .enc →
    (e.encByte b).out.length = e.out.length + (if e.g.toNat = 0 ∨ e.g.toNat = 2 then 1 else 2) ∧
    ((e.g = 0 ∧ e.nb = 0 ∧ (e.encByte b).nb = 3) ∨ (e.g = 1 ∧ e.nb = 3 ∧ (e.encByte b).nb = 1) ∨
     (e.g = 2 ∧ e.nb = 1 ∧ (e.encByte b).nb = 4) ∨ (e.g = 3 ∧ e.nb = 4 ∧ (e.encByte b).nb = 2) ∨
     (e.g = 4 ∧ e.nb = 2 ∧ (e.encByte b).nb = 0)) ∧
    ((e.encByte b).g = 0 → (e.encByte b).nb = 0 ∧ (e.encByte b).acc = 0)

/-- `ENC` end step (41_encoder.md R128): after a partial group the zero-filled last symbol and the padding are
appended, and the command completes. Nothing else changes. R128 says that `NB` is 1 to 4 when `G` is not 0, and
this is stated for every `NB` and `G`: at `NB` 6 or 7, or `G` 6 or 7, a subtraction stops at 0, which is the model's
choice (log 25). -/
def Obligations.EncEndStepPadsAndCompletes : Prop :=
  ∀ (s : State) (e : Engine), s.TurnOf e 1 0 → e.state = .enc → e.i = e.n →
    let out := e.out ++ (if e.g = 0 then [] else
      fwdRom (BitVec.ofNat 5 (e.acc.toNat * 2 ^ (5 - e.nb.toNat))) ::
        List.replicate (8 - (8 * e.g.toNat + 4) / 5) 0x3D)
    exec .enc s = .next { s with
      engines := s.engines.set s.turn { e with
        out := out, outLen := out.length, done := true, err := false, errcode := 0, state := .idle } }

/-- `DEC` while validating (42_decoder.md R161, R162; 60_exceptions.md R203): an `INVALID` code ends the command
with the error and no output, any other advances the cursor, and at the end the decoding pass starts afresh. -/
def Obligations.DecValidatesThenStartsDecoding : Prop :=
  ∀ (s : State) (e : Engine), s.TurnOf e 2 0 → e.state = .dchk →
    (∀ c, e.i < e.n → e.input[e.i]? = some c → classify c = .invalid →
      exec .dec s = .next { s with
        engines := s.engines.set s.turn { e with
          out := [], outLen := 0, rval := 0, errIndex := e.i, errChar := c, errcode := 1, err := true,
          done := true, state := .idle } }) ∧
    (∀ c, e.i < e.n → e.input[e.i]? = some c → classify c ≠ .invalid →
      exec .dec s = .next { s with engines := s.engines.set s.turn { e with i := e.i + 1 } }) ∧
    (e.i = e.n →
      exec .dec s = .next { s with
        engines := s.engines.set s.turn { e with
          i := 0, g := 0, acc := 0, nb := 0, stop := false, state := .dec } })

/-- `DEC` while decoding (42_decoder.md R163) in numbers: while `STOP` is set a character is passed over, `PAD`
sets it, a value enters the accumulator and a byte is emitted when eight bits are there; then the cursor and the
group position advance, and a group boundary clears the accumulator and `STOP`. Nothing else changes. -/
def Obligations.DecStepAccumulatesWithinTheGroup : Prop :=
  ∀ (s : State) (e : Engine) (c : Byte), s.TurnOf e 2 0 → e.state = .dec → e.i < e.n → e.input[e.i]? = some c →
    ∀ x : Engine,
      ((e.stop = true ∧ x = e) ∨ (e.stop = false ∧ classify c = .pad ∧ x = { e with stop := true }) ∨
       (∃ v, e.stop = false ∧ classify c = .value v ∧ e.nb.toNat < 3 ∧
         x = { e with acc := BitVec.ofNat 7 ((e.acc.toNat * 32 + v.toNat) % 2 ^ (e.nb.toNat + 5)),
                      nb := BitVec.ofNat 3 (e.nb.toNat + 5) }) ∨
       (∃ v, e.stop = false ∧ classify c = .value v ∧ 3 ≤ e.nb.toNat ∧
         x = { e with out := e.out ++ [BitVec.ofNat 8 ((e.acc.toNat * 32 + v.toNat) / 2 ^ (e.nb.toNat - 3))],
                      acc := BitVec.ofNat 7 ((e.acc.toNat * 32 + v.toNat) % 2 ^ (e.nb.toNat - 3)),
                      nb := BitVec.ofNat 3 (e.nb.toNat - 3) })) →
      exec .dec s = .next { s with
        engines := s.engines.set s.turn
          (if e.g.toNat = 7 then { x with i := e.i + 1, g := 0, acc := 0, nb := 0, stop := false }
           else { x with i := e.i + 1, g := BitVec.ofNat 3 (e.g.toNat + 1) }) }

/-- A `DEC` step that meets an `INVALID` code records a model fault and does not stop the machine
(42_decoder.md section 3, 60_exceptions.md section 2); the cursor still advances (DEDUCED, log 23). -/
def Obligations.DecStepOnInvalidRecordsAFault : Prop :=
  ∀ (s : State) (e : Engine) (c : Byte), s.TurnOf e 2 0 → e.state = .dec → e.i < e.n → e.input[e.i]? = some c →
    e.stop = false → classify c = .invalid →
    ∃ t f, exec .dec s = .next t ∧ t.faults = s.faults ++ [⟨s.turn, .invalidInDec⟩] ∧
      t.engines = s.engines.set s.turn f ∧ f.i = e.i + 1 ∧ f.out = e.out ∧ f.state = .dec

/-- `DEC` end step (42_decoder.md R164): the command completes and the pending bits are dropped. -/
def Obligations.DecEndStepCompletes : Prop :=
  ∀ (s : State) (e : Engine), s.TurnOf e 2 0 → e.state = .dec → e.i = e.n →
    exec .dec s = .next { s with
      engines := s.engines.set s.turn { e with
        outLen := e.out.length, done := true, err := false, errcode := 0, state := .idle } }

/-- What every instruction leaves alone: the parameters, the agenda, the turn, the replies, the refusal marks,
every other engine, and of its own engine the captured command and `LASTOP` (10_state.md sections 3 and 4,
20_memory.md R51). `IN` is all of the memory an instruction reads and none is stored to. -/
def Obligations.InstructionFrame : Prop :=
  ∀ (i : Instr) (s t : State), exec i s = .next t →
    t.config = s.config ∧ t.agenda = s.agenda ∧ t.turn = s.turn ∧ t.replies = s.replies ∧
    t.refusals = s.refusals ∧ t.engines.length = s.engines.length ∧
    (∀ k, k ≠ s.turn → t.engines[k]? = s.engines[k]?) ∧
    ∃ e f, s.engines[s.turn]? = some e ∧ t.engines[s.turn]? = some f ∧
      f.opc = e.opc ∧ f.arg = e.arg ∧ f.n = e.n ∧ f.lastop = e.lastop ∧ ∀ a : Nat, f.input[a]? = e.input[a]?

/-- What each family leaves alone besides (10_state.md R32 to R40, 20_memory.md R52). `OUT` is only appended
to: every unit below its old length reads as before, unless the step ends the command with the error. A table
read keeps the sequencing registers, and, when it succeeds, `OUT` and the error registers. `ENC` keeps `STOP`,
`RVAL` and the error registers. A `DEC` step that does not end in the error keeps `RVAL` and the error
registers. Only `DEC` can record a fault mark. -/
def Obligations.FamilyFrames : Prop :=
  ∀ (i : Instr) (s t : State) (e f : Engine), exec i s = .next t → s.engines[s.turn]? = some e →
    t.engines[s.turn]? = some f →
    ((f.done = true ∧ f.err = true ∧ f.state = .idle ∧ f.out = []) ∨
      ∀ a : Nat, a < e.out.length → f.out[a]? = e.out[a]?) ∧
    (i ≠ .dec → t.faults = s.faults) ∧
    (i = .enc → f.stop = e.stop ∧ f.rval = e.rval ∧ f.errIndex = e.errIndex ∧ f.errChar = e.errChar) ∧
    (i = .dec → (f.errIndex = e.errIndex ∧ f.errChar = e.errChar ∧ f.rval = e.rval) ∨
      (f.done = true ∧ f.err = true ∧ f.state = .idle)) ∧
    (∀ v, i = .fwd v → f.i = e.i ∧ f.g = e.g ∧ f.acc = e.acc ∧ f.nb = e.nb ∧ f.stop = e.stop ∧ f.out = e.out ∧
      f.errIndex = e.errIndex ∧ f.errChar = e.errChar) ∧
    (∀ c, i = .rev c → f.i = e.i ∧ f.g = e.g ∧ f.acc = e.acc ∧ f.nb = e.nb ∧ f.stop = e.stop ∧
      (classify c ≠ .invalid → f.out = e.out ∧ f.errIndex = e.errIndex ∧ f.errChar = e.errChar))

/-- Where no rule enables a step of an instruction, it says so: its engine has captured another command, or is
in a sequencing state that has no step of it, or its cursor is past the end (70 R239; the stop is the model's
form of "no step is enabled", log 11). -/
def Obligations.NoStepOutsideItsOwnCommand : Prop :=
  ∀ (i : Instr) (s : State) (e : Engine), s.engines[s.turn]? = some e →
    (decode e.word ≠ .ok i ∨ e.state = .idle ∨
      (i = .enc ∧ (e.state ≠ .enc ∨ e.n < e.i)) ∨
      (i = .dec ∧ ((e.state ≠ .dchk ∧ e.state ≠ .dec) ∨ e.n < e.i)) ∨
      (i.takesData = false ∧ e.state ≠ .tbl)) →
    exec i s = .fault .noEnabledStep

/-! ## Steps of the machine -/

/-- When the turn goes to a busy engine, the step of the machine is the step of the instruction its captured
word decodes to, with the turn set and the invariants checked after it (10_state.md section 3, 70 section 3;
the latched word is DEDUCED, log 18). -/
def Obligations.StepRunsTheLatchedInstruction : Prop :=
  ∀ (s : State) (k : Nat) (rest : List Event) (e : Engine) (i : Instr),
    s.agenda = .run k :: rest → s.engines[k]? = some e → e.state ≠ .idle → decode e.word = .ok i →
    step s = afterTurn k (exec i { s with agenda := rest, turn := k })

/-- A word placed by `withFetchWord` is the instruction the very next step runs, on engine 0 as the issue step
leaves it (the model's way of placing a command, log 14). -/
def Obligations.PlacedWordRunsNext : Prop :=
  ∀ (s : State) (e : Engine) (w : CmdWord) (i : Instr), s.engines[0]? = some e → decode w = .ok i →
    step (s.withFetchWord 16 w.toNat) =
      afterTurn 0 (exec i { s with
        turn := 0, engines := s.engines.set 0 (({ e with state := .idle } : Engine).capture w ⟨i, []⟩) })

/-- Whose turn it is: the turn of an `IDLE` engine passes and changes nothing but the agenda (the model's choice,
log 5); with an empty agenda a busy engine moves, the lowest-numbered one (the model's choice, log 4); and when
all are `IDLE` the machine has no step (93_implementation_defined.md section 1, U20; log 6). -/
def Obligations.TurnsPassMoveOrEnd : Prop :=
  (∀ (s : State) (k : Nat) (rest : List Event) (e : Engine), s.agenda = .run k :: rest →
    s.engines[k]? = some e → e.state = .idle → step s = .next { s with agenda := rest }) ∧
  ∀ s : State, s.agenda = [] →
    (∀ (k : Nat) (e : Engine), s.engines[k]? = some e → e.state ≠ .idle →
      (∀ j f, j < k → s.engines[j]? = some f → f.state = .idle) → step s = s.engineTurn k) ∧
    ((∀ e ∈ s.engines, e.state = .idle) → step s = .fault .idle)

/-- The issue step (10_state.md R46) to an engine, for every outcome of the check of R75: an accepted command
within capacity writes exactly the registers the rule lists; a busy engine, a failed check or too much data
leaves every register as it was and records the reason. -/
def Obligations.IssueCapturesOrRefuses : Prop :=
  ∀ (s : State) (k : Nat) (w : CmdWord) (d : List Byte) (rest : List Event) (e : Engine),
    s.agenda = .issue k w d :: rest → s.engines[k]? = some e →
    (∀ c, e.state ≠ .idle → check w d = .ok c →
      step s = .next { s with agenda := rest, refusals := s.refusals ++ [⟨k, .busy⟩] }) ∧
    (∀ r, e.state = .idle → check w d = .error r →
      step s = .next { s with agenda := rest, refusals := s.refusals ++ [⟨k, r⟩] }) ∧
    (∀ c m, e.state = .idle → check w d = .ok c → s.config.maxN = some m → m < d.length →
      step s = .next { s with agenda := rest, refusals := s.refusals ++ [⟨k, .capacity⟩] }) ∧
    (∀ c, e.state = .idle → check w d = .ok c → (∀ m, s.config.maxN = some m → d.length ≤ m) →
      step s = .next { s with
        agenda := rest,
        engines := s.engines.set k
          { done := false, err := false, errcode := 0, lastop := BitVec.ofNat 4 (w.toNat / 4096),
            errIndex := 0, errChar := 0, rval := 0, outLen := 0, out := [],
            opc := BitVec.ofNat 4 (w.toNat / 4096), arg := BitVec.ofNat 8 w.toNat, input := d, n := d.length,
            i := 0, g := 0, acc := 0, nb := 0, stop := false,
            state := if w.toNat / 4096 = 1 then .enc else if w.toNat / 4096 = 2 then .dchk else .tbl } })

/-- A command issued to a busy engine, whatever its word, is refused as busy, and the running command is
unaffected (70_reset_and_hazards.md section 2; that busy is asked before the check of R75 is DEDUCED, log 8). -/
def Obligations.BusyEngineIsUnaffected : Prop :=
  ∀ (s : State) (k : Nat) (w : CmdWord) (d : List Byte) (rest : List Event) (e : Engine),
    s.agenda = .issue k w d :: rest → s.engines[k]? = some e → e.state ≠ .idle →
    step s = .next { s with agenda := rest, refusals := s.refusals ++ [⟨k, .busy⟩] }

/-- Host reads of registers (10_state.md R36 to R41): registers 0 to 4 are returned, 5 and above are refused,
and no engine changes (20_memory.md R63). -/
def Obligations.HostReadsRegistersZeroToFour : Prop :=
  ∀ (s : State) (k r : Nat) (rest : List Event) (e : Engine),
    s.agenda = .readReg k r :: rest → s.engines[k]? = some e →
    (5 ≤ r → step s = .next { s with agenda := rest, refusals := s.refusals ++ [⟨k, .access⟩] }) ∧
    ∀ v, ((r = 0 ∧ v = e.status.toNat) ∨ (r = 1 ∧ v = e.errIndex) ∨ (r = 2 ∧ v = e.errChar.toNat) ∨
        (r = 3 ∧ v = e.rval.toNat) ∨ (r = 4 ∧ v = e.outLen)) →
      step s = .next { s with agenda := rest, replies := s.replies ++ [.reg k r v] }

/-- Host reads of `OUT` (20_memory.md R50, R53; that `DONE` is asked too is DEDUCED, log 13): inside
`OUT_LEN` the unit is returned, outside or before completion the access is refused, and no engine changes. -/
def Obligations.HostReadsOutBelowOutLen : Prop :=
  ∀ (s : State) (k j : Nat) (rest : List Event) (e : Engine),
    s.agenda = .readOut k j :: rest → s.engines[k]? = some e →
    ((e.done = false ∨ e.outLen ≤ j) →
      step s = .next { s with agenda := rest, refusals := s.refusals ++ [⟨k, .access⟩] }) ∧
    (∀ b, e.done = true → j < e.outLen → e.out[j]? = some b →
      step s = .next { s with agenda := rest, replies := s.replies ++ [.out k j b] })

/-- `STATUS` as the host reads it (10_state.md R36): each field at its place, `BUSY` a view of `STATE`, the
reserved bits 0. -/
def Obligations.StatusWordLayout : Prop :=
  ∀ e : Engine,
    e.status.toNat = (if e.state = .idle then 0 else 1) + 2 * e.done.toNat + 4 * e.err.toNat +
      16 * e.errcode.toNat + 256 * e.lastop.toNat

/-- Reset (70_reset_and_hazards.md R230, R231): every register of every engine takes the value of R49, a running
command is abandoned without a result, and the refusal and fault marks stay. That the rest of the agenda and the
replies stay is the model's choice (log 3, 24), and so is that the parameters stand in the state (log 1). -/
def Obligations.ResetClearsEveryEngine : Prop :=
  ∀ (s : State) (rest : List Event), s.agenda = .reset :: rest →
    ∃ t, step s = .next t ∧ t.refusals = s.refusals ∧ t.faults = s.faults ∧ t.config = s.config ∧
      t.agenda = rest ∧ t.replies = s.replies ∧ t.engines.length = s.engines.length ∧
      ∀ e ∈ t.engines, e = Engine.reset

/-- The state after reset (10_state.md R49), for any parameters: each of `NUM_ENGINES` engines has the values the
rule's table lists. -/
def Obligations.ResetValues : Prop :=
  ∀ c : Config, (State.resetFor c).engines.length = c.numEngines ∧
    ∀ e ∈ (State.resetFor c).engines,
      e.state.code = 0 ∧ e.busy = false ∧ e.opc = 0 ∧ e.arg = 0 ∧ e.input = [] ∧ e.n = 0 ∧ e.i = 0 ∧ e.g = 0 ∧
      e.acc = 0 ∧ e.nb = 0 ∧ e.stop = false ∧ e.out = [] ∧ e.status = 0x0000 ∧ e.errIndex = 0 ∧
      e.errChar = 0 ∧ e.rval = 0 ∧ e.outLen = 0

/-! ## The functions the commands compute -/

/-- 41_encoder.md R122: the lane table of a full group, symbol by symbol. -/
def Obligations.FullGroupLaneTable : Prop :=
  ∀ b0 b1 b2 b3 b4 : Byte,
    encodeGroup [b0, b1, b2, b3, b4] =
      [fwdRom (b0.extractLsb' 3 5), fwdRom (b0.extractLsb' 0 3 ++ b1.extractLsb' 6 2),
       fwdRom (b1.extractLsb' 1 5), fwdRom (b1.extractLsb' 0 1 ++ b2.extractLsb' 4 4),
       fwdRom (b2.extractLsb' 0 4 ++ b3.extractLsb' 7 1), fwdRom (b3.extractLsb' 2 5),
       fwdRom (b3.extractLsb' 0 2 ++ b4.extractLsb' 5 3), fwdRom (b4.extractLsb' 0 5)]

/-- 41_encoder.md R123, R124: the partial groups: meaningful symbols, zero fill, padding. -/
def Obligations.PartialGroupTable : Prop :=
  (∀ b0 : Byte, encodeGroup [b0] =
    [fwdRom (b0.extractLsb' 3 5), fwdRom (b0.extractLsb' 0 3 ++ 0#2)] ++ List.replicate 6 0x3D) ∧
  (∀ b0 b1 : Byte, encodeGroup [b0, b1] =
    [fwdRom (b0.extractLsb' 3 5), fwdRom (b0.extractLsb' 0 3 ++ b1.extractLsb' 6 2),
     fwdRom (b1.extractLsb' 1 5), fwdRom (b1.extractLsb' 0 1 ++ 0#4)] ++ List.replicate 4 0x3D) ∧
  (∀ b0 b1 b2 : Byte, encodeGroup [b0, b1, b2] =
    [fwdRom (b0.extractLsb' 3 5), fwdRom (b0.extractLsb' 0 3 ++ b1.extractLsb' 6 2),
     fwdRom (b1.extractLsb' 1 5), fwdRom (b1.extractLsb' 0 1 ++ b2.extractLsb' 4 4),
     fwdRom (b2.extractLsb' 0 4 ++ 0#1)] ++ List.replicate 3 0x3D) ∧
  (∀ b0 b1 b2 b3 : Byte, encodeGroup [b0, b1, b2, b3] =
    [fwdRom (b0.extractLsb' 3 5), fwdRom (b0.extractLsb' 0 3 ++ b1.extractLsb' 6 2),
     fwdRom (b1.extractLsb' 1 5), fwdRom (b1.extractLsb' 0 1 ++ b2.extractLsb' 4 4),
     fwdRom (b2.extractLsb' 0 4 ++ b3.extractLsb' 7 1), fwdRom (b3.extractLsb' 2 5),
     fwdRom (b3.extractLsb' 0 2 ++ 0#3)] ++ List.replicate 1 0x3D)

/-- 41_encoder.md R126: length, padding only as a suffix of the stated size, every other unit a symbol, the
number of symbols, and concatenation after whole groups. -/
def Obligations.EncoderOutputLaws : Prop :=
  (∀ b : List Byte, (base32Encode b).length = 8 * ceilDiv b.length 5) ∧
  (∀ b : List Byte, ∃ vs : List Value, ∃ p : Nat,
    base32Encode b = vs.map fwdRom ++ List.replicate p padCode ∧ vs.length = ceilDiv (8 * b.length) 5 ∧
    vs.length = 8 * (b.length / 5) + ceilDiv (8 * (b.length % 5)) 5 ∧
    p = (if b.length % 5 = 0 then 0 else if b.length % 5 = 1 then 6 else if b.length % 5 = 2 then 4
         else if b.length % 5 = 3 then 3 else 1)) ∧
  ∀ b c : List Byte, b.length % 5 = 0 → base32Encode (b ++ c) = base32Encode b ++ base32Encode c

/-- 42_decoder.md R155: a full group of eight symbols gives the five bytes of its 40-bit word. -/
def Obligations.FullGroupGivesFiveBytes : Prop :=
  ∀ v0 v1 v2 v3 v4 v5 v6 v7 : Value,
    let w := v0 ++ v1 ++ v2 ++ v3 ++ v4 ++ v5 ++ v6 ++ v7
    decodeGroup 0 0 ([v0, v1, v2, v3, v4, v5, v6, v7].map fwdRom) =
      [w.extractLsb' 32 8, w.extractLsb' 24 8, w.extractLsb' 16 8, w.extractLsb' 8 8, w.extractLsb' 0 8]

/-- 42_decoder.md R157: a group gives five eighths, rounded down, of its values before the first `PAD`; a text
gives the sum over its groups, and at most five eighths of its length. -/
def Obligations.BytesPerGroup : Prop :=
  (∀ t : List Byte, (∀ c ∈ t, classify c ≠ .invalid) →
    (decodeGroup 0 0 t).length = 5 * (t.takeWhile (fun c => classify c != .pad)).length / 8 ∧
    (decodeGroups t).length =
      ((chunks t 8).map (fun g => 5 * (g.takeWhile (fun c => classify c != .pad)).length / 8)).sum) ∧
  ∀ t : List Byte, (decodeGroups t).length ≤ 5 * t.length / 8

/-- 42_decoder.md R151 and 60_exceptions.md R204: decoding fails exactly when some code is `INVALID`, and
reports the lowest index with the code as received. -/
def Obligations.DecodeFailsAtTheLowestInvalidIndex : Prop :=
  ∀ t : List Byte,
    (∀ k c, base32Decode t = .err k c ↔
      (t[k]? = some c ∧ classify c = .invalid ∧ ∀ j x, j < k → t[j]? = some x → classify x ≠ .invalid)) ∧
    ((∃ out, base32Decode t = .ok out) ↔ ∀ c ∈ t, classify c ≠ .invalid)

/-- 42_decoder.md R152: decoding does not depend on the case of ASCII letters. -/
def Obligations.DecodeIgnoresCase : Prop :=
  ∀ t : List Byte, base32Decode (t.map fold) = base32Decode t ∧
    base32Decode (t.map (fun c => if 0x41 ≤ c.toNat ∧ c.toNat ≤ 0x5A then c + 0x20 else c)) = base32Decode t

/-- 42_decoder.md R166 (a): decoding an encoded byte sequence gives it back. -/
def Obligations.DecodeOfEncodeIsTheInput : Prop :=
  ∀ b : List Byte, base32Decode (base32Encode b) = .ok b

/-- 42_decoder.md R166 (b): a text that equals an encoding up to the case of its letters decodes to its bytes,
and encoding those gives the text in capitals. -/
def Obligations.CanonicalTextReencodes : Prop :=
  ∀ t b : List Byte, t.map fold = (base32Encode b).map fold →
    base32Decode t = .ok b ∧ base32Encode b = t.map fold

/-- 42_decoder.md R166 (c): decoding distributes over concatenation after whole groups, and a failure is at the
first invalid index of the whole. -/
def Obligations.DecodeOfConcatenation : Prop :=
  ∀ t u : List Byte, t.length % 8 = 0 →
    (∀ x y, base32Decode t = .ok x → base32Decode u = .ok y → base32Decode (t ++ u) = .ok (x ++ y)) ∧
    (∀ k c, base32Decode t = .err k c → base32Decode (t ++ u) = .err k c) ∧
    (∀ x k c, base32Decode t = .ok x → base32Decode u = .err k c →
      base32Decode (t ++ u) = .err (t.length + k) c)

/-- 42_decoder.md R166 (d) and R167: examples that decoding is not injective and of its corner cases. -/
def Obligations.DecoderCornerCases : Prop :=
  (∀ x ∈ [codes "MY======", codes "MZ======", codes "my======", codes "MY", codes "MYA", codes "MY=A===="],
    base32Decode x = .ok [0x66]) ∧
  (∀ n : Nat, base32Decode (List.replicate n padCode) = .ok []) ∧
  base32Decode (codes "M=======") = .ok [] ∧ base32Decode (codes "M") = .ok [] ∧
  base32Decode (codes "=MY=====") = .ok [] ∧
  base32Decode (codes "MY======MZXQ====") = .ok [0x66, 0x66, 0x6F] ∧
  base32Decode (codes "MZXW6YTBM") = .ok [0x66, 0x6F, 0x6F, 0x62, 0x61]

/-! ## Whole commands -/

/-- `ENC` from issue to completion (41_encoder.md R129 and R120): the engine is busy through the issue and `N`
turns, and after exactly `N + 1` it is idle with `OUT = encode(IN)`; nothing but that engine, the agenda and the
turn has changed. -/
def Obligations.EncCommandComputesEncode : Prop :=
  ∀ (s : State) (k : Nat) (e : Engine) (d : List Byte) (rest : List Event),
    s.engines[k]? = some e → e.state = .idle → s.config.fits d.length = true →
    s.agenda = .issue k 0x1000 d :: (List.replicate (d.length + 1) (.run k) ++ rest) →
    (∃ t g, core.run (d.length + 1) s = .next t ∧ t.engines[k]? = some g ∧ g.busy = true) ∧
    ∃ f : Engine,
      core.run (d.length + 2) s = .next { s with agenda := rest, turn := k, engines := s.engines.set k f } ∧
      f.out = base32Encode d ∧ f.outLen = (base32Encode d).length ∧ f.status = 0x0102 ∧ f.rval = 0 ∧
      f.errIndex = 0 ∧ f.errChar = 0 ∧ f.input = d

/-- `DEC` from issue to completion (42_decoder.md R165, R150; 60_exceptions.md R203). A text that decodes takes
exactly `2N + 2` turns and leaves its bytes; one whose first invalid code is at index `j` takes exactly `j + 1`
and leaves the error and no output. Nothing but that engine, the agenda and the turn changes. -/
def Obligations.DecCommandComputesDecode : Prop :=
  ∀ (s : State) (k : Nat) (e : Engine) (d : List Byte) (rest : List Event),
    s.engines[k]? = some e → e.state = .idle → s.config.fits d.length = true →
    (∀ out, base32Decode d = .ok out →
      s.agenda = .issue k 0x2000 d :: (List.replicate (2 * d.length + 2) (.run k) ++ rest) →
      (∃ t g, core.run (2 * d.length + 2) s = .next t ∧ t.engines[k]? = some g ∧ g.busy = true) ∧
      ∃ f : Engine,
        core.run (2 * d.length + 3) s =
          .next { s with agenda := rest, turn := k, engines := s.engines.set k f } ∧
        f.out = out ∧ f.outLen = out.length ∧ f.status = 0x0202 ∧ f.rval = 0 ∧ f.errIndex = 0 ∧
        f.errChar = 0 ∧ f.input = d) ∧
    (∀ j c, base32Decode d = .err j c →
      s.agenda = .issue k 0x2000 d :: (List.replicate (j + 1) (.run k) ++ rest) →
      (∃ t g, core.run (j + 1) s = .next t ∧ t.engines[k]? = some g ∧ g.busy = true) ∧
      ∃ f : Engine,
        core.run (j + 2) s = .next { s with agenda := rest, turn := k, engines := s.engines.set k f } ∧
        f.out = [] ∧ f.outLen = 0 ∧ f.status = 0x0216 ∧ f.rval = 0 ∧ f.errIndex = j ∧ f.errChar = c)

/-- `FWD` and `REV` from issue to completion (40_tables.md R100, R103, R107): busy after the issue, done after the
one turn that follows it. -/
def Obligations.TableCommandsTakeOneTurn : Prop :=
  ∀ (s : State) (k : Nat) (e : Engine) (rest : List Event), s.engines[k]? = some e → e.state = .idle →
    (∀ v : Value, s.agenda = .issue k (0x3000 ||| v.setWidth 16) [] :: .run k :: rest →
      (∃ t g, core.run 1 s = .next t ∧ t.engines[k]? = some g ∧ g.busy = true) ∧
      ∃ f : Engine,
        core.run 2 s = .next { s with agenda := rest, turn := k, engines := s.engines.set k f } ∧
        f.rval = fwdRom v ∧ f.status = 0x0302 ∧ f.out = [] ∧ f.outLen = 0 ∧ f.errIndex = 0 ∧ f.errChar = 0) ∧
    (∀ c : Byte, s.agenda = .issue k (0x4000 ||| c.setWidth 16) [] :: .run k :: rest →
      (∃ t g, core.run 1 s = .next t ∧ t.engines[k]? = some g ∧ g.busy = true) ∧
      ∃ f : Engine,
        core.run 2 s = .next { s with agenda := rest, turn := k, engines := s.engines.set k f } ∧
        f.out = [] ∧ f.outLen = 0 ∧ f.errIndex = 0 ∧
        (∀ v, classify c = .value v → f.rval = v.setWidth 8 ∧ f.status = 0x0402 ∧ f.errChar = 0) ∧
        (classify c = .pad → f.rval = 0x20 ∧ f.status = 0x0402 ∧ f.errChar = 0) ∧
        (classify c = .invalid → f.rval = 0 ∧ f.status = 0x0416 ∧ f.errChar = c))

/-! ## Invariants and whole-machine rules -/

/-- Every step keeps the invariant of a reachable state (10_state.md R27 to R40): the accumulator holds at most
`NB` bits, the cursor stays within the input, `OUT` has the length R35 gives, validated text stays validated, a
busy engine shows nothing, and the status fields stay legal. -/
def Obligations.StepKeepsTheInvariant : Prop :=
  ∀ s t : State, s.Inv → step s = .next t → t.Inv

/-- The state after reset meets the invariant, for any parameters that meet R6's constraints (10_state.md R49). -/
def Obligations.ResetMeetsTheInvariant : Prop :=
  ∀ c : Config, c.wf = true → (State.resetFor c).Inv

/-- No correct run reaches a model fault (60_exceptions.md R208): a step from a state that meets the invariant
records no fault mark, is not refused, and never finds that no step is enabled (the two stops are the model's
form, log 11 and 12). -/
def Obligations.NoModelFaultUnderTheInvariant : Prop :=
  ∀ s : State, s.Inv → (∀ t, step s = .next t → t.faults = s.faults) ∧ (∀ r, step s ≠ .refused r) ∧
    step s ≠ .fault .noEnabledStep

/-- 70_reset_and_hazards.md R239: an engine that is not `IDLE` has exactly one enabled step. That every other
instruction answers the fault `noEnabledStep` is the model's form of "no step is enabled" (log 11). -/
def Obligations.BusyEngineHasExactlyOneStep : Prop :=
  ∀ (s : State) (k : Nat) (e : Engine), s.Inv → s.engines[k]? = some e → e.state ≠ .idle →
    ∃ i : Instr, (∃ t, exec i { s with turn := k } = .next t) ∧
      ∀ j : Instr, j ≠ i → exec j { s with turn := k } = .fault .noEnabledStep

/-- No engine can hang (70_reset_and_hazards.md R239): left alone with an empty agenda, every engine is `IDLE`
within the sum over all engines of `2N + 2` steps. That a busy engine, the lowest-numbered one, moves when the
agenda is empty is the model's scheduler (log 4). -/
def Obligations.EveryRunningCommandCompletes : Prop :=
  ∀ s : State, s.Inv → s.agenda = [] →
    ∃ (m : Nat) (t : State), m ≤ (s.engines.map (fun e => 2 * e.n + 2)).sum ∧ core.run m s = .next t ∧
      t.quiet = true

/-- Refusal and fault marks are never cleared, by any step, reset included (60_exceptions.md R207, R208;
70_reset_and_hazards.md R230). That they are lists which grow at the end is the model's form (log 7), and so are the
replies, a field of the model's own that no step clears (log 19); the parameters stay as log 1 says. -/
def Obligations.MarksAreNeverCleared : Prop :=
  ∀ s t : State, step s = .next t →
    s.refusals <+: t.refusals ∧ s.faults <+: t.faults ∧ s.replies <+: t.replies ∧ t.config = s.config

/-- No index register and no length ever outgrows `IDX_BITS` (00_scope.md R6, R12; 20_memory.md R54). -/
def Obligations.IndexRegistersFitTheirWidth : Prop :=
  ∀ (s : State) (e : Engine), s.Inv → e ∈ s.engines →
    s.config.indexFits e.n = true ∧ s.config.indexFits e.i = true ∧ s.config.indexFits e.errIndex = true ∧
    s.config.indexFits e.outLen = true ∧ s.config.indexFits e.out.length = true

/-- While an engine is busy the host sees nothing of its command (20_memory.md R62, 70 R236): registers 1 to 4
read 0 and every read of `OUT` is refused. -/
def Obligations.BusyEngineShowsNothing : Prop :=
  ∀ (s : State) (k : Nat) (e : Engine), s.Inv → s.engines[k]? = some e → e.state ≠ .idle →
    (∀ r, 1 ≤ r → r ≤ 4 → e.readReg r = some 0) ∧ ∀ j, e.readOut j = none

/-- The result a host can read changes only at issue, completion and reset (10_state.md R42, R47): in any other
step the host-visible registers of every engine stay, and of an engine that stays idle everything stays. -/
def Obligations.ResultChangesOnlyAtIssueCompletionReset : Prop :=
  ∀ (s t : State) (k : Nat) (e f : Engine), step s = .next t → s.engines[k]? = some e →
    t.engines[k]? = some f → e.busy = f.busy → s.agenda.head? ≠ some .reset →
    f.errIndex = e.errIndex ∧ f.errChar = e.errChar ∧ f.rval = e.rval ∧ f.outLen = e.outLen ∧
    f.status = e.status ∧ (e.busy = false → f = e)

/-- An item of the agenda that does not concern an engine leaves all of it alone (60_exceptions.md R211). -/
def Obligations.EnginesArePrivate : Prop :=
  ∀ (s t : State) (ev : Event) (rest : List Event) (k : Nat), s.agenda = ev :: rest →
    ev.concerns k = false → step s = .next t → t.engines[k]? = s.engines[k]?

/-- 20_memory.md R64 (a): what becomes of an engine, and what the host reads from it, does not depend on how the
steps of the others interleave: the items of the agenda that concern it alone give the same. -/
def Obligations.InterleavingDoesNotMatter : Prop :=
  ∀ (s t : State) (k : Nat) (evs : List Event), core.run evs.length { s with agenda := evs } = .next t →
    ∃ u : State,
      core.run (evs.filter (Event.concerns k)).length { s with agenda := evs.filter (Event.concerns k) } =
        .next u ∧
      u.engines[k]? = t.engines[k]? ∧
      u.replies.filter (Reply.concerns k) = t.replies.filter (Reply.concerns k) ∧
      u.refusals.filter (fun m => m.engine == k) = t.refusals.filter (fun m => m.engine == k) ∧
      u.faults.filter (fun m => m.engine == k) = t.faults.filter (fun m => m.engine == k)
end

