-- ==== Sys2Proof/Laws/State.lean ====
section
/-!
SUPPORT. One lemma per field and update of the state: what each shared update writes and what it leaves.
-/

namespace Sys2Proof.Machine

@[simp] theorem State.setEngine_config (s : State) (k : Nat) (e : Engine) :
    (s.setEngine k e).config = s.config := rfl

@[simp] theorem State.setEngine_engines (s : State) (k : Nat) (e : Engine) :
    (s.setEngine k e).engines = s.engines.set k e := rfl

@[simp] theorem State.setEngine_agenda (s : State) (k : Nat) (e : Engine) :
    (s.setEngine k e).agenda = s.agenda := rfl

@[simp] theorem State.setEngine_turn (s : State) (k : Nat) (e : Engine) :
    (s.setEngine k e).turn = s.turn := rfl

@[simp] theorem State.setEngine_replies (s : State) (k : Nat) (e : Engine) :
    (s.setEngine k e).replies = s.replies := rfl

@[simp] theorem State.setEngine_refusals (s : State) (k : Nat) (e : Engine) :
    (s.setEngine k e).refusals = s.refusals := rfl

@[simp] theorem State.setEngine_faults (s : State) (k : Nat) (e : Engine) :
    (s.setEngine k e).faults = s.faults := rfl

@[simp] theorem State.refuse_config (s : State) (k : Nat) (r : RefuseReason) :
    (s.refuse k r).config = s.config := rfl

@[simp] theorem State.refuse_engines (s : State) (k : Nat) (r : RefuseReason) :
    (s.refuse k r).engines = s.engines := rfl

@[simp] theorem State.refuse_agenda (s : State) (k : Nat) (r : RefuseReason) :
    (s.refuse k r).agenda = s.agenda := rfl

@[simp] theorem State.refuse_turn (s : State) (k : Nat) (r : RefuseReason) :
    (s.refuse k r).turn = s.turn := rfl

@[simp] theorem State.refuse_replies (s : State) (k : Nat) (r : RefuseReason) :
    (s.refuse k r).replies = s.replies := rfl

@[simp] theorem State.refuse_refusals (s : State) (k : Nat) (r : RefuseReason) :
    (s.refuse k r).refusals = s.refusals ++ [⟨k, r⟩] := rfl

@[simp] theorem State.refuse_faults (s : State) (k : Nat) (r : RefuseReason) :
    (s.refuse k r).faults = s.faults := rfl

@[simp] theorem State.recordFaults_config (s : State) (k : Nat) (rs : List FaultReason) :
    (s.recordFaults k rs).config = s.config := rfl

@[simp] theorem State.recordFaults_engines (s : State) (k : Nat) (rs : List FaultReason) :
    (s.recordFaults k rs).engines = s.engines := rfl

@[simp] theorem State.recordFaults_agenda (s : State) (k : Nat) (rs : List FaultReason) :
    (s.recordFaults k rs).agenda = s.agenda := rfl

@[simp] theorem State.recordFaults_turn (s : State) (k : Nat) (rs : List FaultReason) :
    (s.recordFaults k rs).turn = s.turn := rfl

@[simp] theorem State.recordFaults_replies (s : State) (k : Nat) (rs : List FaultReason) :
    (s.recordFaults k rs).replies = s.replies := rfl

@[simp] theorem State.recordFaults_refusals (s : State) (k : Nat) (rs : List FaultReason) :
    (s.recordFaults k rs).refusals = s.refusals := rfl

@[simp] theorem State.recordFaults_faults (s : State) (k : Nat) (rs : List FaultReason) :
    (s.recordFaults k rs).faults = s.faults ++ rs.map (fun r => ⟨k, r⟩) := rfl

@[simp] theorem State.reply_config (s : State) (r : Reply) :
    (s.reply r).config = s.config := rfl

@[simp] theorem State.reply_engines (s : State) (r : Reply) :
    (s.reply r).engines = s.engines := rfl

@[simp] theorem State.reply_agenda (s : State) (r : Reply) :
    (s.reply r).agenda = s.agenda := rfl

@[simp] theorem State.reply_turn (s : State) (r : Reply) :
    (s.reply r).turn = s.turn := rfl

@[simp] theorem State.reply_replies (s : State) (r : Reply) :
    (s.reply r).replies = s.replies ++ [r] := rfl

@[simp] theorem State.reply_refusals (s : State) (r : Reply) :
    (s.reply r).refusals = s.refusals := rfl

@[simp] theorem State.reply_faults (s : State) (r : Reply) :
    (s.reply r).faults = s.faults := rfl

@[simp] theorem State.hostReset_config (s : State) :
    (s.hostReset).config = s.config := rfl

@[simp] theorem State.hostReset_engines (s : State) :
    (s.hostReset).engines = s.engines.map (fun _ => Engine.reset) := rfl

@[simp] theorem State.hostReset_agenda (s : State) :
    (s.hostReset).agenda = s.agenda := rfl

@[simp] theorem State.hostReset_turn (s : State) :
    (s.hostReset).turn = s.turn := rfl

@[simp] theorem State.hostReset_replies (s : State) :
    (s.hostReset).replies = s.replies := rfl

@[simp] theorem State.hostReset_refusals (s : State) :
    (s.hostReset).refusals = s.refusals := rfl

@[simp] theorem State.hostReset_faults (s : State) :
    (s.hostReset).faults = s.faults := rfl

@[simp] theorem Engine.append_state (e : Engine) (v : Byte) :
    (e.append v).state = e.state := rfl

@[simp] theorem Engine.append_opc (e : Engine) (v : Byte) :
    (e.append v).opc = e.opc := rfl

@[simp] theorem Engine.append_arg (e : Engine) (v : Byte) :
    (e.append v).arg = e.arg := rfl

@[simp] theorem Engine.append_input (e : Engine) (v : Byte) :
    (e.append v).input = e.input := rfl

@[simp] theorem Engine.append_n (e : Engine) (v : Byte) :
    (e.append v).n = e.n := rfl

@[simp] theorem Engine.append_i (e : Engine) (v : Byte) :
    (e.append v).i = e.i := rfl

@[simp] theorem Engine.append_g (e : Engine) (v : Byte) :
    (e.append v).g = e.g := rfl

@[simp] theorem Engine.append_acc (e : Engine) (v : Byte) :
    (e.append v).acc = e.acc := rfl

@[simp] theorem Engine.append_nb (e : Engine) (v : Byte) :
    (e.append v).nb = e.nb := rfl

@[simp] theorem Engine.append_stop (e : Engine) (v : Byte) :
    (e.append v).stop = e.stop := rfl

@[simp] theorem Engine.append_out (e : Engine) (v : Byte) :
    (e.append v).out = e.out ++ [v] := rfl

@[simp] theorem Engine.append_done (e : Engine) (v : Byte) :
    (e.append v).done = e.done := rfl

@[simp] theorem Engine.append_err (e : Engine) (v : Byte) :
    (e.append v).err = e.err := rfl

@[simp] theorem Engine.append_errcode (e : Engine) (v : Byte) :
    (e.append v).errcode = e.errcode := rfl

@[simp] theorem Engine.append_lastop (e : Engine) (v : Byte) :
    (e.append v).lastop = e.lastop := rfl

@[simp] theorem Engine.append_errIndex (e : Engine) (v : Byte) :
    (e.append v).errIndex = e.errIndex := rfl

@[simp] theorem Engine.append_errChar (e : Engine) (v : Byte) :
    (e.append v).errChar = e.errChar := rfl

@[simp] theorem Engine.append_rval (e : Engine) (v : Byte) :
    (e.append v).rval = e.rval := rfl

@[simp] theorem Engine.append_outLen (e : Engine) (v : Byte) :
    (e.append v).outLen = e.outLen := rfl

@[simp] theorem Engine.appendAll_state (e : Engine) (vs : List Byte) :
    (e.appendAll vs).state = e.state := rfl

@[simp] theorem Engine.appendAll_opc (e : Engine) (vs : List Byte) :
    (e.appendAll vs).opc = e.opc := rfl

@[simp] theorem Engine.appendAll_arg (e : Engine) (vs : List Byte) :
    (e.appendAll vs).arg = e.arg := rfl

@[simp] theorem Engine.appendAll_input (e : Engine) (vs : List Byte) :
    (e.appendAll vs).input = e.input := rfl

@[simp] theorem Engine.appendAll_n (e : Engine) (vs : List Byte) :
    (e.appendAll vs).n = e.n := rfl

@[simp] theorem Engine.appendAll_i (e : Engine) (vs : List Byte) :
    (e.appendAll vs).i = e.i := rfl

@[simp] theorem Engine.appendAll_g (e : Engine) (vs : List Byte) :
    (e.appendAll vs).g = e.g := rfl

@[simp] theorem Engine.appendAll_acc (e : Engine) (vs : List Byte) :
    (e.appendAll vs).acc = e.acc := rfl

@[simp] theorem Engine.appendAll_nb (e : Engine) (vs : List Byte) :
    (e.appendAll vs).nb = e.nb := rfl

@[simp] theorem Engine.appendAll_stop (e : Engine) (vs : List Byte) :
    (e.appendAll vs).stop = e.stop := rfl

@[simp] theorem Engine.appendAll_out (e : Engine) (vs : List Byte) :
    (e.appendAll vs).out = e.out ++ vs := rfl

@[simp] theorem Engine.appendAll_done (e : Engine) (vs : List Byte) :
    (e.appendAll vs).done = e.done := rfl

@[simp] theorem Engine.appendAll_err (e : Engine) (vs : List Byte) :
    (e.appendAll vs).err = e.err := rfl

@[simp] theorem Engine.appendAll_errcode (e : Engine) (vs : List Byte) :
    (e.appendAll vs).errcode = e.errcode := rfl

@[simp] theorem Engine.appendAll_lastop (e : Engine) (vs : List Byte) :
    (e.appendAll vs).lastop = e.lastop := rfl

@[simp] theorem Engine.appendAll_errIndex (e : Engine) (vs : List Byte) :
    (e.appendAll vs).errIndex = e.errIndex := rfl

@[simp] theorem Engine.appendAll_errChar (e : Engine) (vs : List Byte) :
    (e.appendAll vs).errChar = e.errChar := rfl

@[simp] theorem Engine.appendAll_rval (e : Engine) (vs : List Byte) :
    (e.appendAll vs).rval = e.rval := rfl

@[simp] theorem Engine.appendAll_outLen (e : Engine) (vs : List Byte) :
    (e.appendAll vs).outLen = e.outLen := rfl

@[simp] theorem Engine.flagsOk_state (e : Engine) :
    (e.flagsOk).state = e.state := rfl

@[simp] theorem Engine.flagsOk_opc (e : Engine) :
    (e.flagsOk).opc = e.opc := rfl

@[simp] theorem Engine.flagsOk_arg (e : Engine) :
    (e.flagsOk).arg = e.arg := rfl

@[simp] theorem Engine.flagsOk_input (e : Engine) :
    (e.flagsOk).input = e.input := rfl

@[simp] theorem Engine.flagsOk_n (e : Engine) :
    (e.flagsOk).n = e.n := rfl

@[simp] theorem Engine.flagsOk_i (e : Engine) :
    (e.flagsOk).i = e.i := rfl

@[simp] theorem Engine.flagsOk_g (e : Engine) :
    (e.flagsOk).g = e.g := rfl

@[simp] theorem Engine.flagsOk_acc (e : Engine) :
    (e.flagsOk).acc = e.acc := rfl

@[simp] theorem Engine.flagsOk_nb (e : Engine) :
    (e.flagsOk).nb = e.nb := rfl

@[simp] theorem Engine.flagsOk_stop (e : Engine) :
    (e.flagsOk).stop = e.stop := rfl

@[simp] theorem Engine.flagsOk_out (e : Engine) :
    (e.flagsOk).out = e.out := rfl

@[simp] theorem Engine.flagsOk_done (e : Engine) :
    (e.flagsOk).done = true := rfl

@[simp] theorem Engine.flagsOk_err (e : Engine) :
    (e.flagsOk).err = false := rfl

@[simp] theorem Engine.flagsOk_errcode (e : Engine) :
    (e.flagsOk).errcode = 0 := rfl

@[simp] theorem Engine.flagsOk_lastop (e : Engine) :
    (e.flagsOk).lastop = e.lastop := rfl

@[simp] theorem Engine.flagsOk_errIndex (e : Engine) :
    (e.flagsOk).errIndex = e.errIndex := rfl

@[simp] theorem Engine.flagsOk_errChar (e : Engine) :
    (e.flagsOk).errChar = e.errChar := rfl

@[simp] theorem Engine.flagsOk_rval (e : Engine) :
    (e.flagsOk).rval = e.rval := rfl

@[simp] theorem Engine.flagsOk_outLen (e : Engine) :
    (e.flagsOk).outLen = e.outLen := rfl

@[simp] theorem Engine.completeOk_state (e : Engine) :
    (e.completeOk).state = .idle := rfl

@[simp] theorem Engine.completeOk_opc (e : Engine) :
    (e.completeOk).opc = e.opc := rfl

@[simp] theorem Engine.completeOk_arg (e : Engine) :
    (e.completeOk).arg = e.arg := rfl

@[simp] theorem Engine.completeOk_input (e : Engine) :
    (e.completeOk).input = e.input := rfl

@[simp] theorem Engine.completeOk_n (e : Engine) :
    (e.completeOk).n = e.n := rfl

@[simp] theorem Engine.completeOk_i (e : Engine) :
    (e.completeOk).i = e.i := rfl

@[simp] theorem Engine.completeOk_g (e : Engine) :
    (e.completeOk).g = e.g := rfl

@[simp] theorem Engine.completeOk_acc (e : Engine) :
    (e.completeOk).acc = e.acc := rfl

@[simp] theorem Engine.completeOk_nb (e : Engine) :
    (e.completeOk).nb = e.nb := rfl

@[simp] theorem Engine.completeOk_stop (e : Engine) :
    (e.completeOk).stop = e.stop := rfl

@[simp] theorem Engine.completeOk_out (e : Engine) :
    (e.completeOk).out = e.out := rfl

@[simp] theorem Engine.completeOk_done (e : Engine) :
    (e.completeOk).done = true := rfl

@[simp] theorem Engine.completeOk_err (e : Engine) :
    (e.completeOk).err = false := rfl

@[simp] theorem Engine.completeOk_errcode (e : Engine) :
    (e.completeOk).errcode = 0 := rfl

@[simp] theorem Engine.completeOk_lastop (e : Engine) :
    (e.completeOk).lastop = e.lastop := rfl

@[simp] theorem Engine.completeOk_errIndex (e : Engine) :
    (e.completeOk).errIndex = e.errIndex := rfl

@[simp] theorem Engine.completeOk_errChar (e : Engine) :
    (e.completeOk).errChar = e.errChar := rfl

@[simp] theorem Engine.completeOk_rval (e : Engine) :
    (e.completeOk).rval = e.rval := rfl

@[simp] theorem Engine.completeOk_outLen (e : Engine) :
    (e.completeOk).outLen = e.out.length := rfl

@[simp] theorem Engine.raiseInvalidCharacter_state (e : Engine) (i : Nat) (ch : Byte) :
    (e.raiseInvalidCharacter i ch).state = .idle := rfl

@[simp] theorem Engine.raiseInvalidCharacter_opc (e : Engine) (i : Nat) (ch : Byte) :
    (e.raiseInvalidCharacter i ch).opc = e.opc := rfl

@[simp] theorem Engine.raiseInvalidCharacter_arg (e : Engine) (i : Nat) (ch : Byte) :
    (e.raiseInvalidCharacter i ch).arg = e.arg := rfl

@[simp] theorem Engine.raiseInvalidCharacter_input (e : Engine) (i : Nat) (ch : Byte) :
    (e.raiseInvalidCharacter i ch).input = e.input := rfl

@[simp] theorem Engine.raiseInvalidCharacter_n (e : Engine) (i : Nat) (ch : Byte) :
    (e.raiseInvalidCharacter i ch).n = e.n := rfl

@[simp] theorem Engine.raiseInvalidCharacter_i (e : Engine) (i : Nat) (ch : Byte) :
    (e.raiseInvalidCharacter i ch).i = e.i := rfl

@[simp] theorem Engine.raiseInvalidCharacter_g (e : Engine) (i : Nat) (ch : Byte) :
    (e.raiseInvalidCharacter i ch).g = e.g := rfl

@[simp] theorem Engine.raiseInvalidCharacter_acc (e : Engine) (i : Nat) (ch : Byte) :
    (e.raiseInvalidCharacter i ch).acc = e.acc := rfl

@[simp] theorem Engine.raiseInvalidCharacter_nb (e : Engine) (i : Nat) (ch : Byte) :
    (e.raiseInvalidCharacter i ch).nb = e.nb := rfl

@[simp] theorem Engine.raiseInvalidCharacter_stop (e : Engine) (i : Nat) (ch : Byte) :
    (e.raiseInvalidCharacter i ch).stop = e.stop := rfl

@[simp] theorem Engine.raiseInvalidCharacter_out (e : Engine) (i : Nat) (ch : Byte) :
    (e.raiseInvalidCharacter i ch).out = [] := rfl

@[simp] theorem Engine.raiseInvalidCharacter_done (e : Engine) (i : Nat) (ch : Byte) :
    (e.raiseInvalidCharacter i ch).done = true := rfl

@[simp] theorem Engine.raiseInvalidCharacter_err (e : Engine) (i : Nat) (ch : Byte) :
    (e.raiseInvalidCharacter i ch).err = true := rfl

@[simp] theorem Engine.raiseInvalidCharacter_errcode (e : Engine) (i : Nat) (ch : Byte) :
    (e.raiseInvalidCharacter i ch).errcode = 1 := rfl

@[simp] theorem Engine.raiseInvalidCharacter_lastop (e : Engine) (i : Nat) (ch : Byte) :
    (e.raiseInvalidCharacter i ch).lastop = e.lastop := rfl

@[simp] theorem Engine.raiseInvalidCharacter_errIndex (e : Engine) (i : Nat) (ch : Byte) :
    (e.raiseInvalidCharacter i ch).errIndex = i := rfl

@[simp] theorem Engine.raiseInvalidCharacter_errChar (e : Engine) (i : Nat) (ch : Byte) :
    (e.raiseInvalidCharacter i ch).errChar = ch := rfl

@[simp] theorem Engine.raiseInvalidCharacter_rval (e : Engine) (i : Nat) (ch : Byte) :
    (e.raiseInvalidCharacter i ch).rval = 0 := rfl

@[simp] theorem Engine.raiseInvalidCharacter_outLen (e : Engine) (i : Nat) (ch : Byte) :
    (e.raiseInvalidCharacter i ch).outLen = 0 := rfl

@[simp] theorem Engine.capture_state (e : Engine) (w : CmdWord) (c : Command) :
    (e.capture w c).state = startState c.instr := rfl

@[simp] theorem Engine.capture_opc (e : Engine) (w : CmdWord) (c : Command) :
    (e.capture w c).opc = opField w := rfl

@[simp] theorem Engine.capture_arg (e : Engine) (w : CmdWord) (c : Command) :
    (e.capture w c).arg = argField w := rfl

@[simp] theorem Engine.capture_input (e : Engine) (w : CmdWord) (c : Command) :
    (e.capture w c).input = c.data := rfl

@[simp] theorem Engine.capture_n (e : Engine) (w : CmdWord) (c : Command) :
    (e.capture w c).n = c.data.length := rfl

@[simp] theorem Engine.capture_i (e : Engine) (w : CmdWord) (c : Command) :
    (e.capture w c).i = 0 := rfl

@[simp] theorem Engine.capture_g (e : Engine) (w : CmdWord) (c : Command) :
    (e.capture w c).g = 0 := rfl

@[simp] theorem Engine.capture_acc (e : Engine) (w : CmdWord) (c : Command) :
    (e.capture w c).acc = 0 := rfl

@[simp] theorem Engine.capture_nb (e : Engine) (w : CmdWord) (c : Command) :
    (e.capture w c).nb = 0 := rfl

@[simp] theorem Engine.capture_stop (e : Engine) (w : CmdWord) (c : Command) :
    (e.capture w c).stop = false := rfl

@[simp] theorem Engine.capture_out (e : Engine) (w : CmdWord) (c : Command) :
    (e.capture w c).out = [] := rfl

@[simp] theorem Engine.capture_done (e : Engine) (w : CmdWord) (c : Command) :
    (e.capture w c).done = false := rfl

@[simp] theorem Engine.capture_err (e : Engine) (w : CmdWord) (c : Command) :
    (e.capture w c).err = false := rfl

@[simp] theorem Engine.capture_errcode (e : Engine) (w : CmdWord) (c : Command) :
    (e.capture w c).errcode = 0 := rfl

@[simp] theorem Engine.capture_lastop (e : Engine) (w : CmdWord) (c : Command) :
    (e.capture w c).lastop = opField w := rfl

@[simp] theorem Engine.capture_errIndex (e : Engine) (w : CmdWord) (c : Command) :
    (e.capture w c).errIndex = 0 := rfl

@[simp] theorem Engine.capture_errChar (e : Engine) (w : CmdWord) (c : Command) :
    (e.capture w c).errChar = 0 := rfl

@[simp] theorem Engine.capture_rval (e : Engine) (w : CmdWord) (c : Command) :
    (e.capture w c).rval = 0 := rfl

@[simp] theorem Engine.capture_outLen (e : Engine) (w : CmdWord) (c : Command) :
    (e.capture w c).outLen = 0 := rfl

end Sys2Proof.Machine
end

