-- ==== Sys2Proof/Laws/Ops.lean ====
section
/-!
SUPPORT. One lemma per shared operation: everything it can do.
-/

namespace Sys2Proof.Machine

open Host (Outcome)

/-- `OUT` is written only at its end, where the write appends (R52, R53). -/
theorem writeOut_eq_some {e e' : Engine} {j : Nat} {v : Byte} :
    e.writeOut j v = some e' ↔ j = e.out.length ∧ e' = e.append v := by
  unfold Engine.writeOut
  split
  · rename_i h; simp [h, eq_comm]
  · rename_i h; simp [h]

/-- `append(v)` is the write at `len(OUT)` (R52). -/
theorem writeOut_at_end (e : Engine) (v : Byte) : e.writeOut e.out.length v = some (e.append v) := by
  simp [Engine.writeOut]

/-- A unit of `OUT` once written is not changed by a later append (R52). -/
theorem append_keeps (e : Engine) (v : Byte) {j : Nat} (h : j < e.out.length) :
    (e.append v).out[j]? = e.out[j]? := by
  simp [List.getElem?_append_left h]

/-- `IN` is read only inside `0..N-1` (R51, R53). -/
theorem readIn_eq_some {e : Engine} {i : Nat} {b : Byte} :
    e.readIn i = some b ↔ i < e.n ∧ e.input[i]? = some b := by
  unfold Engine.readIn
  split
  · rename_i h; simp [h]
  · rename_i h; simp [h]

/-- Inside `0..N-1` the read of `IN` succeeds when `N` is its length (R51). -/
theorem readIn_isSome {e : Engine} (hn : e.n = e.input.length) {i : Nat} (h : i < e.n) :
    ∃ b, e.readIn i = some b := by
  have hi : i < e.input.length := hn ▸ h
  exact ⟨e.input[i], by simp [Engine.readIn, h, hi]⟩

/-- The register `holds` looks at: the captured word decodes to the instruction (R28). -/
theorem holds_iff {e : Engine} {i : Instr} : e.holds i = true ↔ decode e.word = .ok i := by
  unfold Engine.holds
  cases decode e.word with
  | error r => simp
  | ok j => simp

/-- What an engine step within the state can do: it needs the engine whose turn it is, executing `i`, and a
next step of `f`; it writes that engine and records the faults `f` met. -/
theorem advance_next {s t : State} {i : Instr} {f : Engine → Outcome Progress Fault Refusal}
    (h : s.advance i f = .next t) :
    ∃ e p, s.engines[s.turn]? = some e ∧ decode e.word = .ok i ∧ f e = .next p ∧
      t = (s.setEngine s.turn p.engine).recordFaults s.turn p.faults := by
  unfold State.advance at h
  split at h
  · cases h
  · rename_i e he
    split at h
    · rename_i hold
      split at h
      · rename_i p hp
        cases h
        exact ⟨e, p, he, holds_iff.mp hold, hp, rfl⟩
      · cases h
      · cases h
    · cases h

/-- The converse: a next step of `f` on the engine whose turn it is, executing `i`, is a next state. -/
theorem advance_of_next {s : State} {i : Instr} {f : Engine → Outcome Progress Fault Refusal} {e : Engine}
    {p : Progress} (he : s.engines[s.turn]? = some e) (hi : decode e.word = .ok i) (hp : f e = .next p) :
    s.advance i f = .next ((s.setEngine s.turn p.engine).recordFaults s.turn p.faults) := by
  simp [State.advance, he, holds_iff.mpr hi, hp]

/-- An issue to an engine that exists records a mark or captures the command, and does nothing else (R46). -/
theorem issue_cases {s : State} {k : Nat} {w : CmdWord} {d : List Byte} {e : Engine}
    (he : s.engines[k]? = some e) :
    (∃ r, e.acceptCommand s.config w d = .error r ∧ s.issue k w d = .next (s.refuse k r)) ∨
    (∃ c, e.acceptCommand s.config w d = .ok c ∧ s.issue k w d = .next (s.setEngine k (e.capture w c))) := by
  unfold State.issue
  cases h : e.acceptCommand s.config w d with
  | error r => exact .inl ⟨r, rfl, by simp [he, h]⟩
  | ok c => exact .inr ⟨c, rfl, by simp [he, h]⟩

/-- When a command is accepted: the engine is idle, the check of R75 passes, and the data fits (R46). -/
theorem acceptCommand_eq_ok {cfg : Config} {e : Engine} {w : CmdWord} {d : List Byte} {c : Command} :
    e.acceptCommand cfg w d = .ok c ↔ e.busy = false ∧ check w d = .ok c ∧ cfg.fits d.length = true := by
  unfold Engine.acceptCommand
  cases hb : e.busy with
  | true => simp
  | false =>
    cases hc : check w d with
    | error r => simp
    | ok c' =>
      cases hf : cfg.fits d.length with
      | true => simp
      | false => simp

/-- A command accepted by the check carries the data it came with, and its word decodes to its instruction. -/
theorem check_eq_ok {w : CmdWord} {d : List Byte} {c : Command} :
    check w d = .ok c ↔ decode w = .ok c.instr ∧ c.data = d ∧ c.dataAllowed = true := by
  obtain ⟨i, d'⟩ := c
  unfold check
  cases decode w with
  | error r => simp
  | ok j =>
    simp only [Except.ok.injEq]
    split
    · rename_i ha
      simp only [Except.ok.injEq, Command.mk.injEq]
      constructor
      · rintro ⟨rfl, rfl⟩; exact ⟨rfl, rfl, ha⟩
      · rintro ⟨rfl, rfl, -⟩; exact ⟨rfl, rfl⟩
    · rename_i ha
      simp only [reduceCtorEq, false_iff]
      rintro ⟨rfl, rfl, hok⟩
      exact ha hok

/-- The check after a turn adds at most one fault mark and changes nothing else (R208). -/
theorem checkBetweenSteps_cases (s : State) (k : Nat) :
    s.checkBetweenSteps k = s ∨ s.checkBetweenSteps k = s.recordFaults k [.invariantBroken] := by
  unfold State.checkBetweenSteps
  split
  · exact .inl rfl
  · split
    · exact .inl rfl
    · exact .inr rfl

/-- The engines are as they were after the check. -/
@[simp] theorem checkBetweenSteps_engines (s : State) (k : Nat) : (s.checkBetweenSteps k).engines = s.engines := by
  obtain h | h := checkBetweenSteps_cases s k <;> simp [h]

/-- What the turn of an engine can do: pass, when the engine is idle, or run the step of its command. -/
theorem engineTurn_next {s t : State} {k : Nat} (h : s.engineTurn k = .next t) :
    (∃ e, s.engines[k]? = some e ∧ e.busy = false ∧ t = s) ∨
    (∃ e i u, s.engines[k]? = some e ∧ e.busy = true ∧ decode e.word = .ok i ∧
      exec i { s with turn := k } = .next u ∧ t = u.checkBetweenSteps k) := by
  unfold State.engineTurn at h
  split at h
  · cases h
  · rename_i e he
    split at h
    · rename_i hb
      split at h
      · cases h
      · rename_i i hi
        cases hx : exec i { s with turn := k } with
        | next u =>
          rw [hx] at h
          cases h
          exact .inr ⟨e, i, u, he, hb, hi, hx, rfl⟩
        | fault r => rw [hx] at h; cases h
        | refused r => rw [hx] at h; cases h
    · rename_i hb
      cases h
      exact .inl ⟨e, he, by simpa using hb, rfl⟩

/-- What one step can do: the first item of the agenda, or the step of the first busy engine. -/
theorem step_next {s t : State} (h : step s = .next t) :
    (∃ ev rest, s.agenda = ev :: rest ∧ State.perform { s with agenda := rest } ev = .next t) ∨
    (∃ k, s.agenda = [] ∧ s.firstBusy = some k ∧ s.engineTurn k = .next t) := by
  unfold step State.stepOnce at h
  split at h
  · rename_i ev rest hag
    exact .inl ⟨ev, rest, hag, h⟩
  · rename_i hag
    split at h
    · rename_i k hk
      exact .inr ⟨k, hag, hk, h⟩
    · cases h

end Sys2Proof.Machine
end

