-- ==== Sys2Proof/Laws/EngineSteps.lean ====
section
/-!
SUPPORT. What the engine steps of each command can do (spec/40_tables.md, spec/41_encoder.md, spec/42_decoder.md).
-/

namespace Sys2Proof.Machine

open Host (Outcome)

/-- The step of a table read: enabled in `TBL` (R107). -/
theorem tableStep_next {f : Engine → Engine} {e : Engine} {p : Progress} (h : tableStep f e = .next p) :
    e.state = .tbl ∧ p = Progress.clean (f e) := by
  unfold tableStep at h
  cases hs : e.state <;> rw [hs] at h <;> cases h
  exact ⟨rfl, rfl⟩

/-- The step of `ENC`: a byte step or the end step (R127, R128). -/
theorem encStep_next {e : Engine} {p : Progress} (h : e.encStep = .next p) :
    e.state = .enc ∧
      ((∃ b, e.i < e.n ∧ e.readIn e.i = some b ∧ p = Progress.clean (e.encByte b)) ∨
       (e.i = e.n ∧ p = Progress.clean e.encEnd)) := by
  unfold Engine.encStep at h
  cases hs : e.state <;> rw [hs] at h <;> try cases h
  refine ⟨rfl, ?_⟩
  simp only at h
  split at h
  · rename_i hi
    split at h
    · rename_i b hb
      cases h
      exact .inl ⟨b, hi, hb, rfl⟩
    · cases h
  · split at h
    · rename_i hn
      cases h
      exact .inr ⟨hn, rfl⟩
    · cases h

/-- The step of `DEC`: one of the four of R161 to R164. -/
theorem decStep_next {e : Engine} {p : Progress} (h : e.decStep = .next p) :
    (e.state = .dchk ∧
      ((∃ c, e.i < e.n ∧ e.readIn e.i = some c ∧ p = Progress.clean (e.dchkChar c)) ∨
       (e.i = e.n ∧ p = Progress.clean e.dchkEnd))) ∨
    (e.state = .dec ∧
      ((∃ c, e.i < e.n ∧ e.readIn e.i = some c ∧ p = e.decChar c) ∨
       (e.i = e.n ∧ p = Progress.clean e.completeOk))) := by
  unfold Engine.decStep at h
  cases hs : e.state <;> rw [hs] at h <;> try cases h
  · refine .inl ⟨rfl, ?_⟩
    simp only at h
    split at h
    · rename_i hi
      split at h
      · rename_i b hb
        cases h
        exact .inl ⟨b, hi, hb, rfl⟩
      · cases h
    · split at h
      · rename_i hn
        cases h
        exact .inr ⟨hn, rfl⟩
      · cases h
  · refine .inr ⟨rfl, ?_⟩
    simp only at h
    split at h
    · rename_i hi
      split at h
      · rename_i b hb
        cases h
        exact .inl ⟨b, hi, hb, rfl⟩
      · cases h
    · split at h
      · rename_i hn
        cases h
        exact .inr ⟨hn, rfl⟩
      · cases h

end Sys2Proof.Machine
end

