-- ==== Sys2Proof/Laws/PerInstr.lean ====
section
/-!
SUPPORT. Per-instruction facts about the encoding: the word of each instruction matches the row of its mnemonic
(spec/30_encoding.md R77).
-/

/-- The row of the opcode map that bears the instruction's mnemonic accepts its word. -/
def Sys2Proof.Laws.EncodingRow.Statement (i : Sys2Proof.Instr) : Prop :=
  ∃ r ∈ Sys2Proof.opcodeTable, r.mnemonic = i.mnemonic ∧ r.accepts (Sys2Proof.encode i) = true

theorem Sys2Proof.Laws.EncodingRow.enc : Sys2Proof.Laws.EncodingRow.Statement .enc :=
  ⟨⟨"ENC", 0x1000, 0xFFFF⟩, by simp [Sys2Proof.opcodeTable], rfl, by decide⟩

theorem Sys2Proof.Laws.EncodingRow.dec : Sys2Proof.Laws.EncodingRow.Statement .dec :=
  ⟨⟨"DEC", 0x2000, 0xFFFF⟩, by simp [Sys2Proof.opcodeTable], rfl, by decide⟩

theorem Sys2Proof.Laws.EncodingRow.fwd (v : Sys2Proof.Value) : Sys2Proof.Laws.EncodingRow.Statement (.fwd v) :=
  ⟨⟨"FWD", 0x3000, 0xFFE0⟩, by simp [Sys2Proof.opcodeTable], rfl, by revert v; decide⟩

theorem Sys2Proof.Laws.EncodingRow.rev (c : Sys2Proof.Byte) : Sys2Proof.Laws.EncodingRow.Statement (.rev c) :=
  ⟨⟨"REV", 0x4000, 0xFF00⟩, by simp [Sys2Proof.opcodeTable], rfl, by revert c; decide⟩
end

