-- ==== Sys2Proof/Tests/Slice0.lean ====
section
/-!
SUPPORT. The model's own tests: ill-formed terms refused, words written out from the encoding rules, single steps
and small vectors of spec/95_test_vectors.md, and for every statement with hypotheses a witness that meets them.
-/

open Sys2Proof Sys2Proof.Machine

namespace Sys2Proof.Tests

/-! ## Helpers -/

/-- The engine after the issue of a word with data, or the reset engine if the check refuses it. -/
def issued (w : CmdWord) (d : List Byte) : Engine :=
  match check w d with
  | .ok c => Engine.reset.capture w c
  | .error _ => Engine.reset

/-- A block of two engines with engine 0 as given, and what is to come. -/
def blockOf (e : Engine) (agenda : List Event) : State :=
  { State.reset with engines := [e, Engine.reset], agenda := agenda }

/-- A step ended in a next state with the property. -/
def after (o : Host.Outcome State Fault Refusal) (p : State → Bool) : Bool :=
  match o with
  | .next t => p t
  | .fault _ => false
  | .refused _ => false

/-- Engine 0 has the property. -/
def on0 (p : Engine → Bool) (s : State) : Bool := (s.engines[0]?.map p).getD false

/-- `ENC {0x66, 0x6F}` after its first byte step (95_test_vectors.md 3.1). -/
def encMid : Engine := (issued 0x1000 [0x66, 0x6F]).encByte 0x66

/-- The same engine when the command has completed. -/
def encDone : Engine := (encMid.encByte 0x6F).encEnd

/-- The decoding pass of `DEC` over a text, at its start. -/
def decStart (t : List Byte) : Engine := (issued 0x2000 t).dchkEnd

/-! ## Well-formedness: each check refuses an ill-formed term -/

theorem test_wellFormed_data_on_fwd : Command.wellFormed Config.default ⟨.fwd 0, [0x41]⟩ = false := by decide

theorem test_wellFormed_data_on_rev : Command.wellFormed Config.default ⟨.rev 0x41, [0x41]⟩ = false := by decide

theorem test_wellFormed_over_capacity :
    Command.wellFormed ⟨1, some 2, some 4⟩ ⟨.enc, [1, 2, 3]⟩ = false := by decide

theorem test_wellFormed_accepts :
    Command.wellFormed ⟨1, some 2, some 4⟩ ⟨.enc, [1, 2]⟩ = true ∧
    Command.wellFormed ⟨1, some 2, some 4⟩ ⟨.dec, []⟩ = true ∧
    Command.wellFormed Config.default ⟨.rev 0x41, []⟩ = true := by decide

/-- The constraint of 00_scope.md R6 on `IDX_BITS`: `MAX_N = 10` gives 16 units of `OUT`, so 4 bits are too few. -/
theorem test_config_index_width :
    Config.wf ⟨1, some 10, some 5⟩ = true ∧ Config.wf ⟨1, some 10, some 4⟩ = false ∧
    Config.wf ⟨0, none, none⟩ = false ∧ Config.wf ⟨1, none, some 8⟩ = false := by decide

/-! ## Decoding: words written out bit by bit from 30_encoding.md R77 -/

theorem test_decode_enc : decode 0b0001000000000000 = .ok .enc := by decide

theorem test_decode_dec : decode 0b0010000000000000 = .ok .dec := by decide

theorem test_decode_fwd :
    decode 0b0011000000011110 = .ok (.fwd 30) ∧ decode 0b0011000000000001 = .ok (.fwd 1) := by decide

theorem test_decode_rev :
    decode 0b0100000001111001 = .ok (.rev 0x79) ∧ decode 0b0100000010000000 = .ok (.rev 0x80) := by decide

theorem test_encode_words :
    encode .enc = 0x1000 ∧ encode .dec = 0x2000 ∧ encode (.fwd 12) = 0x300C ∧ encode (.rev 0x3D) = 0x403D := by
  decide

/-- The refusals of 95_test_vectors.md 2.5 that the check makes. -/
theorem test_check_refuses :
    check 0x0000 [] = .error .reservedOpcode ∧ check 0x5000 [] = .error .reservedOpcode ∧
    check 0xF000 [] = .error .reservedOpcode ∧ check 0x1100 [] = .error .reservedBits ∧
    check 0x3800 [] = .error .reservedBits ∧ check 0x4F41 [] = .error .reservedBits ∧
    check 0x1001 [0x66] = .error .argNonzero ∧ check 0x2080 (codes "MY======") = .error .argNonzero ∧
    check 0x3020 [] = .error .fwdRange ∧ check 0x30FF [] = .error .fwdRange ∧
    check 0x3000 [0x41] = .error .dataOnTableOp ∧ check 0x4041 [0x41] = .error .dataOnTableOp := by decide

/-- The nearest accepted inputs of the same table. -/
theorem test_check_accepts :
    check 0x1000 [0x66] = .ok ⟨.enc, [0x66]⟩ ∧ check 0x2000 (codes "MY======") = .ok ⟨.dec, codes "MY======"⟩ ∧
    check 0x301F [] = .ok ⟨.fwd 31, []⟩ ∧ check 0x4041 [] = .ok ⟨.rev 0x41, []⟩ := by decide

theorem test_decodeTableWord :
    decodeTableWord 16 0x301E = some (.fwd 30) ∧ decodeTableWord 16 0x3020 = none ∧
    decodeTableWord 16 0x13000 = none := by decide

/-! ## The assembler (30_encoding.md R78 to R80) -/

/-- `ENC "fo"` and `ENC {0x66, 0x6F}` assemble to the same command (R79). -/
theorem test_assemble_data_forms :
    assembleLine (codes "ENC \"fo\"") = .ok (0x1000, [0x66, 0x6F]) ∧
    assembleLine [0x65, 0x6E, 0x63, 0x20, 0x7B, 0x30, 0x78, 0x36, 0x36, 0x2C, 0x20, 0x31, 0x31, 0x31, 0x7D] =
      .ok (0x1000, [0x66, 0x6F]) := by decide +kernel

theorem test_assemble_table_reads :
    assembleLine (codes "FWD 12        ; 0x300C") = .ok (0x300C, []) ∧
    assembleLine (codes "rev 'y'") = .ok (0x4079, []) ∧ assembleLine (codes "FWD 32") = .error .range ∧
    assembleLine (codes ".word 0x3020") = .ok (0x3020, []) := by decide +kernel

theorem test_assemble_escapes :
    assembleLine (codes "DEC \"\\x00\\xE1\\\"\\\\\"") = .ok (0x2000, [0x00, 0xE1, 0x22, 0x5C]) := by decide +kernel

/-- Program P4 of 95_test_vectors.md. -/
theorem test_assemble_program :
    assembleProgram [codes "FWD 31", codes ".word 0x3020"] = .ok [(0x301F, []), (0x3020, [])] := by decide +kernel

theorem test_disassemble_forms :
    printLine (disassemble 0x4079 []) = codes "REV 'y'" ∧ printLine (disassemble 0x4027 []) = codes "REV 0x27" ∧
    printLine (disassemble 0x3020 []) = codes ".word 0x3020" ∧
    printLine (disassemble 0x301E []) = codes "FWD 30" := by decide +kernel

/-! ## The functions (95_test_vectors.md parts 1 and 2) -/

theorem test_encode_V2_to_V6 :
    base32Encode [0x66] = codes "MY======" ∧ base32Encode [0x66, 0x6F] = codes "MZXQ====" ∧
    base32Encode [0x66, 0x6F, 0x6F] = codes "MZXW6===" ∧
    base32Encode [0x66, 0x6F, 0x6F, 0x62] = codes "MZXW6YQ=" ∧
    base32Encode [0x66, 0x6F, 0x6F, 0x62, 0x61] = codes "MZXW6YTB" := by decide

theorem test_encode_EV13 :
    base32Encode [0x12, 0x34, 0x56, 0x78, 0x9A, 0xBC] = codes "CI2FM6E2XQ======" := by decide

theorem test_decode_vectors :
    base32Decode (codes "MZXW6Y") = .ok [0x66, 0x6F, 0x6F] ∧
    base32Decode (codes "MzXw6YtB") = .ok [0x66, 0x6F, 0x6F, 0x62, 0x61] ∧
    base32Decode (codes "ABCDEFG") = .ok [0x00, 0x44, 0x32, 0x14] ∧
    base32Decode (codes "MZXW6YTBO=I=====") = .ok [0x66, 0x6F, 0x6F, 0x62, 0x61] := by decide

theorem test_decode_errors :
    base32Decode (codes "A1!") = .err 1 0x31 ∧ base32Decode (codes "MY=1====") = .err 3 0x31 ∧
    base32Decode [0xE1] = .err 0 0xE1 := by decide

/-! ## Single steps -/

/-- 95_test_vectors.md 2.1, `FWD 26`. -/
theorem test_fwd_step :
    after (exec (.fwd 26) (blockOf (issued 0x301A []) []))
      (on0 fun e => e.rval == 0x32 && e.status == 0x0302) = true := by decide

/-- 95_test_vectors.md 2.2, `REV 'z'`, `REV '='` and `REV '8'`. -/
theorem test_rev_step :
    after (exec (.rev 0x7A) (blockOf (issued 0x407A []) []))
      (on0 fun e => e.rval == 0x19 && e.status == 0x0402) = true ∧
    after (exec (.rev 0x3D) (blockOf (issued 0x403D []) []))
      (on0 fun e => e.rval == 0x20 && e.status == 0x0402) = true ∧
    after (exec (.rev 0x38) (blockOf (issued 0x4038 []) []))
      (on0 fun e => e.rval == 0 && e.status == 0x0416 && e.errIndex == 0 && e.errChar == 0x38) = true := by decide

/-- 95_test_vectors.md 3.1, step 2: `t = 11001101111`, `Z` and `X` are emitted, one bit stays. -/
theorem test_enc_byte_step :
    after (exec .enc (blockOf encMid []))
      (on0 fun e => e.out == codes "MZX" && e.acc == 1 && e.nb == 1 && e.g == 2 && e.i == 2) = true := by decide

/-- 95_test_vectors.md 3.1, step 3. -/
theorem test_enc_end_step :
    after (exec .enc (blockOf (encMid.encByte 0x6F) []))
      (on0 fun e => e.out == codes "MZXQ====" && e.status == 0x0102 && e.outLen == 8) = true := by decide

/-- 95_test_vectors.md 3.2, step 9: 0x66 is emitted and the bits `01` stay. -/
theorem test_dec_step :
    after (exec .dec (blockOf
        { decStart (codes "MZXW6Y") with i := 1, g := 1, acc := 0b01100, nb := 5 } []))
      (on0 fun e => e.out == [0x66] && e.acc == 0b01 && e.nb == 2 && e.g == 2) = true := by decide

/-- 95_test_vectors.md 2.4, DV31: the first character is invalid. -/
theorem test_dec_check_step :
    after (exec .dec (blockOf (issued 0x2000 (codes "8")) []))
      (on0 fun e => e.status == 0x0216 && e.errIndex == 0 && e.errChar == 0x38 && e.out == []) = true := by decide

/-- 95_test_vectors.md 2.5: a command longer than `MAX_N` is refused, one of `MAX_N` units is accepted. -/
theorem test_issue_capacity :
    after ({ State.resetFor ⟨1, some 2, some 4⟩ with agenda := [.issue 0 0x1000 [1, 2, 3]] } |> step)
      (fun t => t.refusals == [⟨0, .capacity⟩] && on0 (fun e => e == Engine.reset) t) = true ∧
    after ({ State.resetFor ⟨1, some 2, some 4⟩ with agenda := [.issue 0 0x1000 [1, 2]] } |> step)
      (fun t => t.refusals.isEmpty && on0 (fun e => e.state == .enc && e.n == 2) t) = true := by decide

/-- 95_test_vectors.md 4, P6: a command issued to a busy engine is refused and the running one is unaffected. -/
theorem test_issue_busy :
    after (step (blockOf encMid [.issue 0 0x3000 []]))
      (fun t => t.refusals == [⟨0, .busy⟩] && on0 (fun e => e == encMid) t) = true := by decide

/-- 70_reset_and_hazards.md R230: reset abandons a running command and keeps the marks. -/
theorem test_reset_step :
    after (step { blockOf encMid [.reset] with refusals := [⟨0, .busy⟩] })
      (fun t => t.engines == [Engine.reset, Engine.reset] && t.refusals == [⟨0, .busy⟩]) = true := by decide

/-- From reset with nothing scheduled the block has no step (93_implementation_defined.md U20). -/
theorem test_reset_has_no_step : step State.reset = .fault .idle := by rfl

/-- A placed word runs in the very next step (log 14). -/
theorem test_withFetchWord :
    after (step (State.reset.withFetchWord 16 0x300C))
      (on0 fun e => e.rval == 0x4D && e.status == 0x0302) = true ∧
    after (step (State.reset.withFetchWord 16 0x1000))
      (on0 fun e => e.out == [] && e.status == 0x0102) = true := by decide

/-- The observation of `FWD 0` (70_reset_and_hazards.md R240). -/
theorem test_observation :
    (runObserved 2 { State.reset with agenda := [.issue 0 0x3000 [], .run 0] } []).2 =
      [⟨0, some ⟨0x0302, 0, 0, 0x41, 0, []⟩⟩] := by decide

/-! ## Witnesses: states and operands that meet the hypotheses of the statements -/

/-- `EncodeAndDecodeAgree`, `OpcodeMapMatchesAndMasks`: a word that is accepted, of each form. -/
theorem witness_accepted_words :
    (∃ w, decode w = .ok .enc) ∧ (∃ w, decode w = .ok .dec) ∧ decode 0x301F = .ok (.fwd 31) ∧
    decode 0x40FF = .ok (.rev 0xFF) :=
  ⟨⟨0x1000, by decide⟩, ⟨0x2000, by decide⟩, by decide, by decide⟩

/-- `AssemblerGivesTheEncodedCommand`: the first number out of each range. -/
theorem witness_assembler_ranges :
    (31 < 32 ∧ assemble (.fwd 32) = .error .range) ∧ (255 < 256 ∧ assemble (.rev 256) = .error .range) ∧
    (0xFFFF < 0x10000 ∧ assemble (.word 0x10000 []) = .error .range) := by decide

/-- `TablesAreMutualInverses`, `TableReadsUndoEachOther`: a code with an entry, and one with a value by folding. -/
theorem witness_table_entries :
    reverseTable 0x37 = some 31 ∧ classify 0x7A = .value 25 ∧ fwdRom 25 = fold 0x7A := by decide

/-- `FwdCompletesWithTheSymbol`, at the last value. -/
theorem witness_FwdCompletesWithTheSymbol :
    ∃ (s : State) (e : Engine) (v : Value), s.TurnOf e 3 (v.setWidth 8) ∧ e.state = .tbl ∧ v = 31 :=
  ⟨blockOf (issued 0x301F []) [], issued 0x301F [], 31, ⟨rfl, by decide, by decide⟩, by decide, rfl⟩

/-- `RevCompletesByClass`, for each class. -/
theorem witness_RevCompletesByClass :
    ∃ (s1 s2 s3 : State) (e1 e2 e3 : Engine),
      (s1.TurnOf e1 4 0x7A ∧ e1.state = .tbl ∧ classify 0x7A = .value 25) ∧
      (s2.TurnOf e2 4 0x3D ∧ e2.state = .tbl ∧ classify 0x3D = .pad) ∧
      (s3.TurnOf e3 4 0x7B ∧ e3.state = .tbl ∧ classify 0x7B = .invalid) :=
  ⟨blockOf (issued 0x407A []) [], blockOf (issued 0x403D []) [], blockOf (issued 0x407B []) [],
    issued 0x407A [], issued 0x403D [], issued 0x407B [],
    ⟨⟨rfl, by decide, by decide⟩, by decide, by decide⟩, ⟨⟨rfl, by decide, by decide⟩, by decide, by decide⟩,
    ⟨⟨rfl, by decide, by decide⟩, by decide, by decide⟩⟩

/-- `EncByteStepEmitsAndCarries`, with no pending bit (one symbol) and with three (two symbols). -/
theorem witness_EncByteStepEmitsAndCarries :
    (∃ (s : State) (e : Engine) (b : Byte), s.TurnOf e 1 0 ∧ e.state = .enc ∧ e.i < e.n ∧
      e.input[e.i]? = some b ∧ e.nb = 0) ∧
    (∃ (s : State) (e : Engine) (b : Byte), s.TurnOf e 1 0 ∧ e.state = .enc ∧ e.i < e.n ∧
      e.input[e.i]? = some b ∧ e.nb = 3) :=
  ⟨⟨blockOf (issued 0x1000 [0x66, 0x6F]) [], issued 0x1000 [0x66, 0x6F], 0x66,
      ⟨rfl, by decide, by decide⟩, by decide, by decide, by decide, by decide⟩,
    ⟨blockOf encMid [], encMid, 0x6F, ⟨rfl, by decide, by decide⟩, by decide, by decide, by decide, by decide⟩⟩

/-- `EncEndStepPadsAndCompletes`, after a whole group (here none) and after a partial one. -/
theorem witness_EncEndStepPadsAndCompletes :
    (∃ (s : State) (e : Engine), s.TurnOf e 1 0 ∧ e.state = .enc ∧ e.i = e.n ∧ e.g = 0) ∧
    (∃ (s : State) (e : Engine), s.TurnOf e 1 0 ∧ e.state = .enc ∧ e.i = e.n ∧ e.g = 2 ∧ e.nb = 1) :=
  ⟨⟨blockOf (issued 0x1000 []) [], issued 0x1000 [], ⟨rfl, by decide, by decide⟩, by decide, by decide, by decide⟩,
    ⟨blockOf (encMid.encByte 0x6F) [], encMid.encByte 0x6F, ⟨rfl, by decide, by decide⟩, by decide, by decide,
      by decide, by decide⟩⟩

/-- `DecValidatesThenStartsDecoding`: an invalid code, a valid one, and the end. -/
theorem witness_DecValidatesThenStartsDecoding :
    ∃ (s1 s2 s3 : State) (e1 e2 e3 : Engine),
      (s1.TurnOf e1 2 0 ∧ e1.state = .dchk ∧ e1.i < e1.n ∧ e1.input[e1.i]? = some 0x38 ∧ classify 0x38 = .invalid) ∧
      (s2.TurnOf e2 2 0 ∧ e2.state = .dchk ∧ e2.i < e2.n ∧ e2.input[e2.i]? = some 0x3D ∧ classify 0x3D ≠ .invalid) ∧
      (s3.TurnOf e3 2 0 ∧ e3.state = .dchk ∧ e3.i = e3.n) :=
  ⟨blockOf (issued 0x2000 [0x38]) [], blockOf (issued 0x2000 [0x3D]) [], blockOf (issued 0x2000 []) [],
    issued 0x2000 [0x38], issued 0x2000 [0x3D], issued 0x2000 [],
    ⟨⟨rfl, by decide, by decide⟩, by decide, by decide, by decide, by decide⟩,
    ⟨⟨rfl, by decide, by decide⟩, by decide, by decide, by decide, by decide⟩,
    ⟨⟨rfl, by decide, by decide⟩, by decide, by decide⟩⟩

/-- An engine in the decoding pass over `"MY="` with the given cursor, pending bits and `STOP`. -/
def decAt (i : Nat) (g : BitVec 3) (acc : BitVec 7) (nb : BitVec 3) (stop : Bool) : Engine :=
  { decStart (codes "MY======") with i := i, g := g, acc := acc, nb := nb, stop := stop }

/-- `DecStepAccumulatesWithinTheGroup`: a value that completes no byte, one that completes a byte, the first
`PAD`, and a character passed over at the end of the group. -/
theorem witness_DecStepAccumulatesWithinTheGroup :
    ((blockOf (decAt 0 0 0 0 false) []).TurnOf (decAt 0 0 0 0 false) 2 0 ∧
      (decAt 0 0 0 0 false).state = .dec ∧ (decAt 0 0 0 0 false).i < (decAt 0 0 0 0 false).n ∧
      (decAt 0 0 0 0 false).input[0]? = some 0x4D ∧ classify 0x4D = .value 12 ∧
      (decAt 0 0 0 0 false).nb.toNat < 3) ∧
    ((blockOf (decAt 1 1 12 5 false) []).TurnOf (decAt 1 1 12 5 false) 2 0 ∧
      (decAt 1 1 12 5 false).input[1]? = some 0x59 ∧ classify 0x59 = .value 24 ∧
      3 ≤ (decAt 1 1 12 5 false).nb.toNat) ∧
    ((blockOf (decAt 2 2 0 2 false) []).TurnOf (decAt 2 2 0 2 false) 2 0 ∧
      (decAt 2 2 0 2 false).input[2]? = some 0x3D ∧ classify 0x3D = .pad) ∧
    ((blockOf (decAt 7 7 0 2 true) []).TurnOf (decAt 7 7 0 2 true) 2 0 ∧
      (decAt 7 7 0 2 true).input[7]? = some 0x3D ∧ (decAt 7 7 0 2 true).g.toNat = 7 ∧
      (decAt 7 7 0 2 true).i < (decAt 7 7 0 2 true).n) :=
  ⟨⟨⟨rfl, by decide, by decide⟩, by decide, by decide, by decide, by decide, by decide⟩,
    ⟨⟨rfl, by decide, by decide⟩, by decide, by decide, by decide⟩,
    ⟨⟨rfl, by decide, by decide⟩, by decide, by decide⟩,
    ⟨⟨rfl, by decide, by decide⟩, by decide, by decide, by decide⟩⟩

/-- `DecStepOnInvalidRecordsAFault`, in a state no run reaches: the pass met a code that was not validated. -/
theorem witness_DecStepOnInvalidRecordsAFault :
    ∃ (s : State) (e : Engine), s.TurnOf e 2 0 ∧ e.state = .dec ∧ e.i < e.n ∧ e.input[e.i]? = some 0x38 ∧
      e.stop = false ∧ classify 0x38 = .invalid :=
  ⟨blockOf (decStart [0x38]) [], decStart [0x38], ⟨rfl, by decide, by decide⟩, by decide, by decide, by decide,
    by decide, by decide⟩

/-- `DecEndStepCompletes`. -/
theorem witness_DecEndStepCompletes : ∃ (s : State) (e : Engine), s.TurnOf e 2 0 ∧ e.state = .dec ∧ e.i = e.n :=
  ⟨blockOf (decStart []) [], decStart [], ⟨rfl, by decide, by decide⟩, by decide, by decide⟩

/-- `InstructionFrame`, `FamilyFrames`: each instruction steps somewhere, `REV` and `DEC` with and without the
error. -/
theorem witness_frames :
    (∃ t, exec .enc (blockOf encMid []) = .next t) ∧ (∃ t, exec (.fwd 31) (blockOf (issued 0x301F []) []) = .next t) ∧
    (∃ t, exec (.rev 0x3D) (blockOf (issued 0x403D []) []) = .next t) ∧
    (∃ t, exec (.rev 0x7B) (blockOf (issued 0x407B []) []) = .next t) ∧
    (∃ t, exec .dec (blockOf (issued 0x2000 [0x38]) []) = .next t) ∧
    (∃ t, exec .dec (blockOf (decStart [0x41]) []) = .next t) :=
  ⟨⟨_, rfl⟩, ⟨_, rfl⟩, ⟨_, rfl⟩, ⟨_, rfl⟩, ⟨_, rfl⟩, ⟨_, rfl⟩⟩

/-- `NoStepOutsideItsOwnCommand`: another command, an idle engine, a wrong sequencing state, a cursor past the end. -/
theorem witness_NoStepOutsideItsOwnCommand :
    (∃ (i : Instr) (s : State) (e : Engine), s.engines[s.turn]? = some e ∧ decode e.word ≠ .ok i ∧ e.state = .tbl) ∧
    (∃ (s : State) (e : Engine), s.engines[s.turn]? = some e ∧ decode e.word = .ok .enc ∧ e.state = .idle) ∧
    (∃ (s : State) (e : Engine), s.engines[s.turn]? = some e ∧ decode e.word = .ok .enc ∧ e.n < e.i) ∧
    (∃ (s : State) (e : Engine), s.engines[s.turn]? = some e ∧ decode e.word = .ok .enc ∧ e.state = .dec) ∧
    (∃ (s : State) (e : Engine), s.engines[s.turn]? = some e ∧ decode e.word = .ok .dec ∧ e.n < e.i) ∧
    (∃ (s : State) (e : Engine), s.engines[s.turn]? = some e ∧ decode e.word = .ok .dec ∧ e.state = .tbl) ∧
    (∃ (s : State) (e : Engine), s.engines[s.turn]? = some e ∧ decode e.word = .ok (.fwd 31) ∧ e.state = .dec) :=
  ⟨⟨.fwd 30, blockOf (issued 0x301F []) [], issued 0x301F [], rfl, by decide, by decide⟩,
    ⟨blockOf encMid.encEnd [], encMid.encEnd, rfl, by decide, by decide⟩,
    ⟨blockOf { encMid with i := 3 } [], { encMid with i := 3 }, rfl, by decide, by decide⟩,
    ⟨blockOf { encMid with state := .dec } [], { encMid with state := .dec }, rfl, by decide, by decide⟩,
    ⟨blockOf { decStart [] with i := 1 } [], { decStart [] with i := 1 }, rfl, by decide, by decide⟩,
    ⟨blockOf { decStart [] with state := .tbl } [], { decStart [] with state := .tbl }, rfl, by decide, by decide⟩,
    ⟨blockOf { issued 0x301F [] with state := .dec } [], { issued 0x301F [] with state := .dec }, rfl, by decide,
      by decide⟩⟩

/-- `StepRunsTheLatchedInstruction`. -/
theorem witness_StepRunsTheLatchedInstruction :
    ∃ (s : State) (k : Nat) (rest : List Event) (e : Engine) (i : Instr),
      s.agenda = .run k :: rest ∧ s.engines[k]? = some e ∧ e.state ≠ .idle ∧ decode e.word = .ok i :=
  ⟨blockOf encMid [.run 0], 0, [], encMid, .enc, rfl, rfl, by decide, by decide⟩

/-- `PlacedWordRunsNext`. -/
theorem witness_PlacedWordRunsNext :
    ∃ (s : State) (e : Engine) (w : CmdWord) (i : Instr), s.engines[0]? = some e ∧ decode w = .ok i :=
  ⟨State.reset, Engine.reset, 0x301F, .fwd 31, rfl, by decide⟩

/-- `TurnsPassMoveOrEnd`: an idle engine's turn, a busy engine behind an idle one, and all idle. -/
theorem witness_TurnsPassMoveOrEnd :
    (∃ (s : State) (k : Nat) (rest : List Event) (e : Engine), s.agenda = .run k :: rest ∧
      s.engines[k]? = some e ∧ e.state = .idle) ∧
    (∃ (s : State) (k : Nat) (e : Engine), s.agenda = [] ∧ s.engines[k]? = some e ∧ e.state ≠ .idle ∧ k = 1 ∧
      ∀ j f, j < k → s.engines[j]? = some f → f.state = .idle) ∧
    (∃ s : State, s.agenda = [] ∧ ∀ e ∈ s.engines, e.state = .idle) := by
  refine ⟨⟨blockOf Engine.reset [.run 0], 0, [], Engine.reset, rfl, rfl, rfl⟩,
    ⟨{ State.reset with engines := [Engine.reset, encMid] }, 1, encMid, rfl, rfl, by decide, rfl, ?_⟩,
    ⟨State.reset, rfl, by decide⟩⟩
  intro j f hj hf
  obtain rfl : j = 0 := by omega
  cases hf
  rfl

/-- `IssueCapturesOrRefuses`: a busy engine, a failed check, one unit too many, and exactly `MAX_N` units. -/
theorem witness_IssueCapturesOrRefuses :
    (∃ (s : State) (e : Engine) (c : Command), s.agenda = [.issue 0 0x3000 []] ∧ s.engines[0]? = some e ∧
      e.state ≠ .idle ∧ check 0x3000 [] = .ok c) ∧
    (∃ (s : State) (e : Engine), s.agenda = [.issue 0 0x3020 []] ∧ s.engines[0]? = some e ∧ e.state = .idle ∧
      check 0x3020 [] = .error .fwdRange) ∧
    (∃ (s : State) (e : Engine) (c : Command), s.agenda = [.issue 0 0x1000 [1, 2, 3]] ∧
      s.engines[0]? = some e ∧ e.state = .idle ∧ check 0x1000 [1, 2, 3] = .ok c ∧ s.config.maxN = some 2) ∧
    (∃ (s : State) (e : Engine) (c : Command), s.agenda = [.issue 0 0x1000 [1, 2]] ∧ s.engines[0]? = some e ∧
      e.state = .idle ∧ check 0x1000 [1, 2] = .ok c ∧ ∀ m, s.config.maxN = some m → [1, 2].length ≤ m) :=
  ⟨⟨blockOf encMid [.issue 0 0x3000 []], encMid, ⟨.fwd 0, []⟩, rfl, rfl, by decide, by decide⟩,
    ⟨blockOf Engine.reset [.issue 0 0x3020 []], Engine.reset, rfl, rfl, rfl, by decide⟩,
    ⟨{ State.resetFor ⟨1, some 2, some 4⟩ with agenda := [.issue 0 0x1000 [1, 2, 3]] }, Engine.reset,
      ⟨.enc, [1, 2, 3]⟩, rfl, rfl, rfl, by decide, rfl⟩,
    ⟨{ State.resetFor ⟨1, some 2, some 4⟩ with agenda := [.issue 0 0x1000 [1, 2]] }, Engine.reset,
      ⟨.enc, [1, 2]⟩, rfl, rfl, rfl, by decide, fun m h => by cases h; decide⟩⟩

/-- `BusyEngineIsUnaffected`: a malformed command to a busy engine. -/
theorem witness_BusyEngineIsUnaffected :
    ∃ (s : State) (k : Nat) (w : CmdWord) (d : List Byte) (rest : List Event) (e : Engine),
      s.agenda = .issue k w d :: rest ∧ s.engines[k]? = some e ∧ e.state ≠ .idle :=
  ⟨blockOf encMid [.issue 0 0x0000 []], 0, 0x0000, [], [], encMid, rfl, rfl, by decide⟩

/-- `HostReadsRegistersZeroToFour`: the last register and the first reserved number. -/
theorem witness_HostReadsRegistersZeroToFour :
    ((blockOf encMid [.readReg 0 4]).agenda = .readReg 0 4 :: [] ∧
      (blockOf encMid [.readReg 0 4]).engines[0]? = some encMid ∧ encMid.readReg 4 = some encMid.outLen) ∧
    ((blockOf encMid [.readReg 0 5]).agenda = .readReg 0 5 :: [] ∧ encMid.readReg 5 = none) :=
  ⟨⟨rfl, rfl, rfl⟩, rfl, rfl⟩

/-- `HostReadsOutBelowOutLen`: the last unit of a completed output, one past it, and a read before completion. -/
theorem witness_HostReadsOutBelowOutLen :
    (∃ (s : State) (e : Engine), s.agenda = [.readOut 0 7] ∧ s.engines[0]? = some e ∧ e.done = true ∧
      7 < e.outLen ∧ e.out[7]? = some 0x3D) ∧
    (∃ (s : State) (e : Engine), s.agenda = [.readOut 0 8] ∧ s.engines[0]? = some e ∧ e.done = true ∧
      e.outLen = 8) ∧
    (∃ (s : State) (e : Engine), s.agenda = [.readOut 0 0] ∧ s.engines[0]? = some e ∧ e.done = false) :=
  ⟨⟨blockOf encDone [.readOut 0 7], encDone, rfl, rfl, by decide, by decide, by decide⟩,
    ⟨blockOf encDone [.readOut 0 8], encDone, rfl, rfl, by decide, by decide⟩,
    ⟨blockOf encMid [.readOut 0 0], encMid, rfl, rfl, by decide⟩⟩

/-- `ResetClearsEveryEngine`. -/
theorem witness_ResetClearsEveryEngine :
    ∃ (s : State) (rest : List Event), s.agenda = .reset :: rest ∧ s.engines ≠ [] :=
  ⟨blockOf encMid [.reset], [], rfl, by simp [blockOf]⟩

/-- `BytesPerGroup`, `DecodeFailsAtTheLowestInvalidIndex`: a valid text and a text with two invalid codes. -/
theorem witness_texts :
    (∀ c ∈ codes "MY======", classify c ≠ .invalid) ∧ base32Decode (codes "MY======") = .ok [0x66] ∧
    base32Decode (codes "A1!") = .err 1 0x31 := by decide

/-- `EncoderOutputLaws`: a whole group before another piece. -/
theorem witness_EncoderOutputLaws : ∃ b c : List Byte, b.length % 5 = 0 ∧ b ≠ [] ∧ c ≠ [] :=
  ⟨[1, 2, 3, 4, 5], [6], by decide⟩

/-- `CanonicalTextReencodes`: a lowercase text. -/
theorem witness_CanonicalTextReencodes :
    (codes "my======").map fold = (base32Encode [0x66]).map fold := by decide

/-- `DecodeOfConcatenation`: both decode, the first fails, the second fails. -/
theorem witness_DecodeOfConcatenation :
    (codes "MY======").length % 8 = 0 ∧ base32Decode (codes "MY======") = .ok [0x66] ∧
    base32Decode (codes "M") = .ok [] ∧ (codes "MY1=====").length % 8 = 0 ∧
    base32Decode (codes "MY1=====") = .err 2 0x31 ∧ base32Decode (codes "M1") = .err 1 0x31 := by decide

/-- `EncCommandComputesEncode`, for the longest input a bounded block takes. -/
theorem witness_EncCommandComputesEncode :
    ∃ (s : State) (k : Nat) (e : Engine) (d : List Byte) (rest : List Event),
      s.engines[k]? = some e ∧ e.state = .idle ∧ s.config.fits d.length = true ∧
      s.agenda = .issue k 0x1000 d :: (List.replicate (d.length + 1) (.run k) ++ rest) :=
  ⟨{ State.resetFor ⟨1, some 2, some 4⟩ with agenda := [.issue 0 0x1000 [1, 2], .run 0, .run 0, .run 0] }, 0,
    Engine.reset, [1, 2], [], rfl, rfl, rfl, rfl⟩

/-- `DecCommandComputesDecode`, a text that decodes and one that does not. -/
theorem witness_DecCommandComputesDecode :
    (∃ (s : State) (k : Nat) (e : Engine) (d out : List Byte) (rest : List Event),
      s.engines[k]? = some e ∧ e.state = .idle ∧ s.config.fits d.length = true ∧ base32Decode d = .ok out ∧
      s.agenda = .issue k 0x2000 d :: (List.replicate (2 * d.length + 2) (.run k) ++ rest)) ∧
    (∃ (s : State) (k : Nat) (e : Engine) (d : List Byte) (j : Nat) (c : Byte) (rest : List Event),
      s.engines[k]? = some e ∧ e.state = .idle ∧ s.config.fits d.length = true ∧ base32Decode d = .err j c ∧
      s.agenda = .issue k 0x2000 d :: (List.replicate (j + 1) (.run k) ++ rest)) :=
  ⟨⟨blockOf Engine.reset [.issue 0 0x2000 [0x4D], .run 0, .run 0, .run 0, .run 0], 0, Engine.reset, [0x4D], [], [],
      rfl, rfl, rfl, by decide, rfl⟩,
    ⟨blockOf Engine.reset [.issue 0 0x2000 [0x4D, 0x31], .run 0, .run 0], 0, Engine.reset, [0x4D, 0x31], 1, 0x31,
      [], rfl, rfl, rfl, by decide, rfl⟩⟩

/-- `TableCommandsTakeOneTurn`. -/
theorem witness_TableCommandsTakeOneTurn :
    (∃ (s : State) (k : Nat) (e : Engine) (rest : List Event) (v : Value), s.engines[k]? = some e ∧
      e.state = .idle ∧ s.agenda = .issue k (0x3000 ||| v.setWidth 16) [] :: .run k :: rest) ∧
    (∃ (s : State) (k : Nat) (e : Engine) (rest : List Event) (c : Byte), s.engines[k]? = some e ∧
      e.state = .idle ∧ s.agenda = .issue k (0x4000 ||| c.setWidth 16) [] :: .run k :: rest ∧
      classify c = .invalid) :=
  ⟨⟨blockOf Engine.reset [.issue 0 (0x3000 ||| (31 : Value).setWidth 16) [], .run 0], 0, Engine.reset, [], 31,
      rfl, rfl, rfl⟩,
    ⟨blockOf Engine.reset [.issue 0 (0x4000 ||| (0x7B : Byte).setWidth 16) [], .run 0], 0, Engine.reset, [], 0x7B,
      rfl, rfl, rfl, by decide⟩⟩

/-! ### States that meet the invariant -/

/-- The reset engine meets the invariant, for any parameters. -/
theorem reset_engine_inv (c : Config) : Engine.reset.Inv c := by
  cases h : c.maxN <;> simp [Engine.Inv, Engine.PhaseInv, Engine.reset, Config.fits, Engine.busy, h]

/-- A block meets the invariant when its engine 0 does. -/
theorem blockOf_inv {e : Engine} (h : e.Inv Config.default) (agenda : List Event) : (blockOf e agenda).Inv := by
  refine ⟨(by decide : Config.default.wf = true), rfl, fun f hf => ?_⟩
  obtain rfl | hf := List.mem_cons.mp hf
  · exact h
  · rw [List.mem_singleton.mp hf]
    exact reset_engine_inv _

/-- `ENC {0x66, 0x6F}` after one byte step meets the invariant. -/
theorem encMid_inv : encMid.Inv Config.default := by
  refine ⟨by decide, by decide, by decide, by decide, by decide, by decide, by decide, by decide, by decide,
    by decide, by decide, ?_⟩
  show decode encMid.word = .ok .enc ∧ encMid.g.toNat = encMid.i % 5 ∧ encMid.nb.toNat = (8 * encMid.g.toNat) % 5 ∧
      encMid.out.length = 8 * (encMid.i / 5) + (8 * encMid.g.toNat) / 5
  decide

/-- `EncByteStepByPosition`. -/
theorem witness_EncByteStepByPosition : ∃ (c : Config) (e : Engine), e.Inv c ∧ e.state = .enc :=
  ⟨Config.default, encMid, encMid_inv, by decide⟩

/-- `StepKeepsTheInvariant`, `NoModelFaultUnderTheInvariant`, `MarksAreNeverCleared`: a busy block takes a step. -/
theorem witness_step_under_the_invariant : ∃ s t : State, s.Inv ∧ step s = .next t :=
  ⟨blockOf encMid [], _, blockOf_inv encMid_inv [], rfl⟩

/-- `ResetMeetsTheInvariant`: parameters with and without a bound on the input. -/
theorem witness_ResetMeetsTheInvariant : Config.wf ⟨1, some 2, some 4⟩ = true ∧ Config.wf Config.default = true := by
  decide

/-- `BusyEngineHasExactlyOneStep`, `BusyEngineShowsNothing`, `EveryRunningCommandCompletes`,
`IndexRegistersFitTheirWidth`: a block that meets the invariant, with a busy engine and an empty agenda. -/
theorem witness_busy_under_the_invariant :
    ∃ (s : State) (k : Nat) (e : Engine), s.Inv ∧ s.agenda = [] ∧ s.engines[k]? = some e ∧ e ∈ s.engines ∧
      e.state ≠ .idle :=
  ⟨blockOf encMid [], 0, encMid, blockOf_inv encMid_inv [], rfl, rfl, by simp [blockOf], by decide⟩

/-- `ResultChangesOnlyAtIssueCompletionReset`: a byte step leaves the engine busy. -/
theorem witness_ResultChangesOnlyAtIssueCompletionReset :
    ∃ (s t : State) (k : Nat) (e f : Engine), step s = .next t ∧ s.engines[k]? = some e ∧
      t.engines[k]? = some f ∧ e.busy = f.busy ∧ s.agenda.head? ≠ some .reset :=
  ⟨blockOf encMid [.run 0], _, 0, encMid, encMid.encByte 0x6F, rfl, rfl, by decide, by decide, by decide⟩

/-- `EnginesArePrivate`: a turn of engine 0 does not concern engine 1. -/
theorem witness_EnginesArePrivate :
    ∃ (s t : State) (ev : Event) (rest : List Event) (k : Nat), s.agenda = ev :: rest ∧ ev.concerns k = false ∧
      step s = .next t :=
  ⟨blockOf encMid [.run 0], _, .run 0, [], 1, rfl, by decide, rfl⟩

/-- `InterleavingDoesNotMatter`: two engines, a turn of each. -/
theorem witness_InterleavingDoesNotMatter :
    ∃ (s t : State) (evs : List Event), core.run evs.length { s with agenda := evs } = .next t ∧
      evs.filter (Event.concerns 1) ≠ evs :=
  ⟨blockOf encMid [], _, [.run 0, .issue 1 0x3000 [], .run 1, .readReg 1 3], rfl, by decide⟩

end Sys2Proof.Tests
end

/-!
PROOFS. The widths of the index registers: every index and length of an engine is bounded by the length of its
input, which the capacity bounds in turn (00_scope.md R6, 20_memory.md R54).
-/

namespace Sys2Proof.Machine

/-! ### What the parameters guarantee -/

/-- Whatever is at most an index that fits also fits. -/
theorem Config.indexFits_mono {c : Config} {j k : Nat} (hk : c.indexFits k = true) (hjk : j ≤ k) :
    c.indexFits j = true := by
  unfold Config.indexFits at hk ⊢
  cases hb : c.idxBits with
  | none => rfl
  | some b =>
    rw [hb] at hk
    exact decide_eq_true (lt_of_le_of_lt hjk (of_decide_eq_true hk))

/-- The length of the encoded output grows with the length of the input. -/
theorem encodedLength_mono {m n : Nat} (h : n ≤ m) : 8 * ceilDiv n 5 ≤ 8 * ceilDiv m 5 := by
  unfold ceilDiv
  omega

/-- R6: for an input within capacity, its length and the length of its encoded output, the longest output of any
command, fit `IDX_BITS`. -/
theorem Config.indexFits_of_fits {c : Config} {n : Nat} (hc : c.wf = true) (hn : c.fits n = true) :
    c.indexFits (max n (8 * ceilDiv n 5)) = true := by
  unfold Config.wf at hc
  unfold Config.fits at hn
  cases hm : c.maxN with
  | none =>
    have hbits : c.idxBits = none := by simpa [hm] using (Bool.and_eq_true_iff.mp hc).2
    simp [Config.indexFits, hbits]
  | some m =>
    have hfit : c.indexFits (max m (8 * ceilDiv m 5)) = true := by
      simpa [hm] using (Bool.and_eq_true_iff.mp hc).2
    have hnm : n ≤ m := by simpa [hm] using hn
    exact Config.indexFits_mono hfit (max_le_max hnm (encodedLength_mono hnm))

/-! ### What the invariant says of the lengths of an engine -/

/-- The output never outgrows the encoding of an input of length `N`: between steps of `ENC` it is that of the `I`
bytes consumed, in `DEC` at most five eighths of the characters consumed (R54). -/
theorem Engine.PhaseInv.out_length_le {e : Engine} (h : e.PhaseInv) (hi : e.i ≤ e.n) :
    e.out.length ≤ 8 * ceilDiv e.n 5 := by
  unfold Engine.PhaseInv at h
  cases hs : e.state <;> rw [hs] at h
  case idle => exact h.2
  case enc =>
    obtain ⟨-, hg, -, hout⟩ := h
    rw [hout, hg, ceilDiv]
    omega
  case dchk =>
    obtain ⟨-, hout, -⟩ := h
    simp [hout]
  case dec =>
    obtain ⟨-, -, -, hout, -⟩ := h
    unfold ceilDiv
    omega
  case tbl =>
    obtain ⟨-, -, hout⟩ := h
    simp [hout]

/-- `OUT_LEN` is 0 while the engine is busy, and the length of `OUT` when it is idle (R40, R62). -/
theorem Engine.Inv.outLen_le_out_length {c : Config} {e : Engine} (h : e.Inv c) : e.outLen ≤ e.out.length := by
  obtain ⟨-, -, -, -, -, -, -, -, -, -, hbusy, hphase⟩ := h
  by_cases hs : e.state = .idle
  · unfold Engine.PhaseInv at hphase
    rw [hs] at hphase
    exact hphase.1.le
  · obtain ⟨-, -, hlen, -⟩ := hbusy (by simpa [Engine.busy] using hs)
    exact hlen ▸ Nat.zero_le _

/-- Settles O55: `I` and `ERR_INDEX` are at most `N`, and `OUT_LEN` and the output at most the encoded length of an
input of length `N`, which R6 makes fit `IDX_BITS`. -/
theorem indexRegistersFitTheirWidth : Obligations.IndexRegistersFitTheirWidth := by
  intro s e ⟨hwf, _, hengines⟩ he
  have hinv := hengines e he
  have hlen := hinv.outLen_le_out_length
  obtain ⟨-, hfits, hi, -, -, -, -, -, herr, -, -, hphase⟩ := hinv
  have hbound := Config.indexFits_of_fits hwf hfits
  have hout : e.out.length ≤ max e.n (8 * ceilDiv e.n 5) := le_max_of_le_right (hphase.out_length_le hi)
  exact ⟨Config.indexFits_mono hbound (le_max_left _ _),
    Config.indexFits_mono hbound (le_max_of_le_left hi),
    Config.indexFits_mono hbound (le_max_of_le_left herr),
    Config.indexFits_mono hbound (hlen.trans hout),
    Config.indexFits_mono hbound hout⟩

end Sys2Proof.Machine

/-!
PROOFS. The fields of a command word: an accepted word is its two fields `OP` and `ARG` with `RSV = 0`, and they are
the fields of the instruction it decodes to (30_encoding.md R70 to R75).
-/

namespace Sys2Proof.Machine

/-- A `FWD` argument with bits 7 to 5 zero is its operand, zero-extended (R73). -/
theorem setWidth_fwdOperand {arg : Byte} (h : arg.extractLsb' 5 3 = 0) : (fwdOperand arg).setWidth 8 = arg := by
  have hsplit : arg.extractLsb' 5 3 ++ fwdOperand arg = arg :=
    (BitVec.extractLsb'_append_extractLsb'_eq_extractLsb' rfl).trans BitVec.extractLsb'_eq_self
  rw [h] at hsplit
  exact (BitVec.setWidth_eq_append (by decide)).trans hsplit

/-- What decoding a word to an instruction says of its fields. -/
theorem fields_of_decode {w : CmdWord} {i : Instr} (h : decode w = .ok i) :
    opField w = i.op ∧ rsvField w = 0 ∧ argField w = i.arg := by
  simp only [decode, Bool.not_eq_true', bne_iff_ne, beq_iff_eq] at h
  split at h
  · cases h
  next hop =>
  split at h
  · cases h
  next hrsv =>
  have hrsv : rsvField w = 0 := by simpa using hrsv
  split at h
  · cases h
  next harg =>
  split at h
  · cases h
  next hfwd =>
  split at h
  next h1 => cases h; exact ⟨h1, hrsv, by simpa [h1, Instr.arg] using harg⟩
  next h1 =>
  split at h
  next h2 => cases h; exact ⟨h2, hrsv, by simpa [h2, Instr.arg] using harg⟩
  next h2 =>
  split at h
  next h3 => cases h; exact ⟨h3, hrsv, (setWidth_fwdOperand (by simpa [h3] using hfwd)).symm⟩
  next h3 => cases h; exact ⟨by simp_all [Instr.op], hrsv, rfl⟩

/-- A word is its three fields (R70). -/
theorem fields_append (w : CmdWord) : opField w ++ rsvField w ++ argField w = w := by
  have hhigh : opField w ++ rsvField w = w.extractLsb' 8 8 := BitVec.extractLsb'_append_extractLsb'_eq_extractLsb' rfl
  rw [hhigh]
  exact (BitVec.extractLsb'_append_extractLsb'_eq_extractLsb' rfl).trans BitVec.extractLsb'_eq_self

/-- The engine's `OPC` and `ARG` hold all of an accepted word (R28, R72). -/
theorem commandWord_fields {w : CmdWord} {i : Instr} (h : decode w = .ok i) :
    commandWord (opField w) (argField w) = w := by
  obtain ⟨-, hrsv, -⟩ := fields_of_decode h
  have hw := fields_append w
  rwa [hrsv] at hw

/-- The word an engine executes after the issue step is the one that was issued (R46). -/
theorem capture_word {w : CmdWord} {c : Command} (e : Engine) (h : decode w = .ok c.instr) :
    (e.capture w c).word = w := commandWord_fields h

theorem op_toNat_le (i : Instr) : i.op.toNat ≤ 4 := by
  cases i <;> simp [Instr.op]

theorem startState_ne_idle (i : Instr) : startState i ≠ .idle := by
  cases i <;> simp [startState]

/-- An engine is busy exactly while it is not `IDLE` (R36). -/
@[simp] theorem busy_eq_false_iff {e : Engine} : e.busy = false ↔ e.state = .idle := by
  simp [Engine.busy]

@[simp] theorem busy_eq_true_iff {e : Engine} : e.busy = true ↔ e.state ≠ .idle := by
  simp [Engine.busy]

end Sys2Proof.Machine

/-!
PROOFS. What an engine step and a step of the machine can do, said once: the engine moves of 40_tables.md,
41_encoder.md and 42_decoder.md, what each leaves of an engine, and what a step leaves of the list of engines.
-/

namespace Sys2Proof.Machine

open Host (Outcome)

/-! ### The moves of an engine -/

/-- The step of each command on its engine. -/
def engineStep : Instr → Engine → Outcome Progress Fault Refusal
  | .enc => Engine.encStep
  | .dec => Engine.decStep
  | .fwd v => tableStep (Engine.fwdStep v)
  | .rev c => tableStep (Engine.revStep c)

theorem exec_eq_advance (i : Instr) (s : State) : exec i s = s.advance i (engineStep i) := by
  cases i <;> rfl

/-- The moves of an engine, one per rule: R127, R128, R161 to R164, R100 and R103. -/
inductive Engine.Move (e : Engine) : Instr → Progress → Prop
  | encByte {b : Byte} (hs : e.state = .enc) (hi : e.i < e.n) (hb : e.readIn e.i = some b) :
      e.Move .enc (Progress.clean (e.encByte b))
  | encEnd (hs : e.state = .enc) (hi : e.i = e.n) : e.Move .enc (Progress.clean e.encEnd)
  | dchkChar {c : Byte} (hs : e.state = .dchk) (hi : e.i < e.n) (hc : e.readIn e.i = some c) :
      e.Move .dec (Progress.clean (e.dchkChar c))
  | dchkEnd (hs : e.state = .dchk) (hi : e.i = e.n) : e.Move .dec (Progress.clean e.dchkEnd)
  | decChar {c : Byte} (hs : e.state = .dec) (hi : e.i < e.n) (hc : e.readIn e.i = some c) :
      e.Move .dec (e.decChar c)
  | decEnd (hs : e.state = .dec) (hi : e.i = e.n) : e.Move .dec (Progress.clean e.completeOk)
  | fwd (v : Value) (hs : e.state = .tbl) : e.Move (.fwd v) (Progress.clean (e.fwdStep v))
  | rev (c : Byte) (hs : e.state = .tbl) : e.Move (.rev c) (Progress.clean (e.revStep c))

theorem move_of_engineStep {i : Instr} {e : Engine} {p : Progress} (h : engineStep i e = .next p) : e.Move i p := by
  cases i with
  | enc =>
    obtain ⟨hs, ⟨b, hi, hb, rfl⟩ | ⟨hi, rfl⟩⟩ := encStep_next h
    · exact .encByte hs hi hb
    · exact .encEnd hs hi
  | dec =>
    obtain ⟨hs, ⟨c, hi, hc, rfl⟩ | ⟨hi, rfl⟩⟩ | ⟨hs, ⟨c, hi, hc, rfl⟩ | ⟨hi, rfl⟩⟩ := decStep_next h
    · exact .dchkChar hs hi hc
    · exact .dchkEnd hs hi
    · exact .decChar hs hi hc
    · exact .decEnd hs hi
  | fwd v =>
    obtain ⟨hs, rfl⟩ := tableStep_next h
    exact .fwd v hs
  | rev c =>
    obtain ⟨hs, rfl⟩ := tableStep_next h
    exact .rev c hs

/-- What `exec` can do: the engine whose turn it is makes a move of its own command. -/
theorem exec_next {i : Instr} {s t : State} (h : exec i s = .next t) :
    ∃ e p, s.engines[s.turn]? = some e ∧ decode e.word = .ok i ∧ e.Move i p ∧
      t = (s.setEngine s.turn p.engine).recordFaults s.turn p.faults := by
  rw [exec_eq_advance] at h
  obtain ⟨e, p, he, hi, hp, ht⟩ := advance_next h
  exact ⟨e, p, he, hi, move_of_engineStep hp, ht⟩

/-! ### What a move leaves of the engine -/

/-- `f` is `e` in the sequencing state `st` with other values of `I`, `G`, `ACC`, `NB`, `STOP` and `OUT`: the
registers a command at work may write (R30 to R34). -/
def Engine.WorksTo (e f : Engine) (st : EngineState) : Prop :=
  ∃ i g acc nb stop out,
    f = { e with state := st, i := i, g := g, acc := acc, nb := nb, stop := stop, out := out }

/-- The last lines of R163 in numbers: the group boundary is at `G = 7`. -/
theorem decAdvance_eq (e : Engine) :
    e.decAdvance = if e.g.toNat = 7 then { e with i := e.i + 1, g := 0, acc := 0, nb := 0, stop := false }
      else { e with i := e.i + 1, g := BitVec.ofNat 3 (e.g.toNat + 1) } := by
  unfold Engine.decAdvance
  by_cases h : e.g.toNat = 7
  · simp [h]
  · have hlt : e.g.toNat + 1 < 8 := by have := e.g.isLt; omega
    have hne : BitVec.ofNat 3 (e.g.toNat + 1) ≠ 0 := by bv_omega
    simp only [Nat.mod_eq_of_lt hlt, hne, h, if_false]

theorem decAdvance_worksTo {e f : Engine} {st : EngineState} (h : e.WorksTo f st) : e.WorksTo f.decAdvance st := by
  obtain ⟨i, g, acc, nb, stop, out, rfl⟩ := h
  rw [decAdvance_eq]
  split
  · exact ⟨_, _, _, _, _, _, rfl⟩
  · exact ⟨_, _, _, _, _, _, rfl⟩

theorem decAccept_worksTo (e : Engine) (c : Byte) : e.WorksTo (e.decAccept c).engine e.state := by
  unfold Engine.decAccept
  split
  · exact ⟨_, _, _, _, _, _, rfl⟩
  · split
    · exact ⟨_, _, _, _, _, _, rfl⟩
    · exact ⟨_, _, _, _, _, _, rfl⟩
    · exact ⟨_, _, _, _, _, _, rfl⟩

/-- After a move the engine is still at work, has completed, or has raised the error (R47, R203). -/
theorem Engine.Move.outcome {e : Engine} {i : Instr} {p : Progress} (h : e.Move i p) :
    (∃ st, st ≠ .idle ∧ e.WorksTo p.engine st) ∨
    (∃ v out, p.engine = ({ e with rval := v, out := out } : Engine).completeOk) ∨
    ∃ j c, p.engine = e.raiseInvalidCharacter j c := by
  cases h with
  | encByte hs _ _ => exact .inl ⟨.enc, by decide, _, _, _, _, _, _, by rw [← hs]; rfl⟩
  | encEnd _ _ => exact .inr (.inl ⟨_, _, rfl⟩)
  | @dchkChar c hs _ _ =>
    simp only [Progress.clean, Engine.dchkChar]
    split
    · exact .inr (.inr ⟨_, _, rfl⟩)
    · exact .inl ⟨.dchk, by decide, _, _, _, _, _, _, by rw [← hs]⟩
    · exact .inl ⟨.dchk, by decide, _, _, _, _, _, _, by rw [← hs]⟩
  | dchkEnd _ _ => exact .inl ⟨.dec, by decide, _, _, _, _, _, _, rfl⟩
  | @decChar c hs _ _ =>
    have hw := decAdvance_worksTo (decAccept_worksTo e c)
    rw [hs] at hw
    exact .inl ⟨.dec, by decide, hw⟩
  | decEnd _ _ => exact .inr (.inl ⟨_, _, rfl⟩)
  | fwd v _ => exact .inr (.inl ⟨_, _, rfl⟩)
  | rev c _ =>
    simp only [Progress.clean, Engine.revStep]
    split
    · exact .inr (.inl ⟨_, _, rfl⟩)
    · exact .inr (.inl ⟨_, _, rfl⟩)
    · exact .inr (.inr ⟨_, _, rfl⟩)

/-- No move touches the captured command or `LASTOP` (R28, R29, R51). -/
theorem Engine.Move.keeps_command {e : Engine} {i : Instr} {p : Progress} (h : e.Move i p) :
    p.engine.opc = e.opc ∧ p.engine.arg = e.arg ∧ p.engine.n = e.n ∧ p.engine.lastop = e.lastop ∧
      p.engine.input = e.input := by
  obtain ⟨_, -, _, _, _, _, _, _, hf⟩ | ⟨_, _, hf⟩ | ⟨_, _, hf⟩ := h.outcome
  · simp [hf]
  · simp [hf]
  · simp [hf]

/-- A move that leaves the engine busy keeps the registers the host reads (R42). -/
theorem Engine.Move.keeps_result {e : Engine} {i : Instr} {p : Progress} (h : e.Move i p) (he : e.busy = true)
    (hf : p.engine.busy = true) :
    p.engine.errIndex = e.errIndex ∧ p.engine.errChar = e.errChar ∧ p.engine.rval = e.rval ∧
      p.engine.outLen = e.outLen ∧ p.engine.status = e.status := by
  obtain ⟨_, -, _, _, _, _, _, _, hp⟩ | ⟨_, _, hp⟩ | ⟨_, _, hp⟩ := h.outcome
  · rw [hp] at hf ⊢
    exact ⟨rfl, rfl, rfl, rfl, by rw [Engine.status, Engine.status, he, hf]⟩
  · simp [hp] at hf
  · simp [hp] at hf

/-! ### What a step leaves of the list of engines -/

/-- What one step of the machine makes of the engines `es`, when `next` is the first item of the agenda. -/
inductive EnginesAfter (cfg : Config) (es : List Engine) (next : Option Event) : List Engine → Prop
  /-- A host read, a refused command, or a turn that passes. -/
  | unchanged : EnginesAfter cfg es next es
  /-- Engine `k` captures an accepted command (R46). -/
  | issue {k : Nat} {e : Engine} {w : CmdWord} {d : List Byte} {c : Command} (he : es[k]? = some e)
      (hc : e.acceptCommand cfg w d = .ok c) : EnginesAfter cfg es next (es.set k (e.capture w c))
  /-- The busy engine `k` makes a move (R239). -/
  | move {k : Nat} {e : Engine} {i : Instr} {p : Progress} (he : es[k]? = some e) (hb : e.busy = true)
      (hi : decode e.word = .ok i) (hm : e.Move i p) : EnginesAfter cfg es next (es.set k p.engine)
  /-- The host asserts reset (R230). -/
  | reset (h : next = some .reset) : EnginesAfter cfg es next (es.map fun _ => Engine.reset)

/-- The check after a turn does not write the parameters. -/
@[simp] theorem checkBetweenSteps_config (s : State) (k : Nat) : (s.checkBetweenSteps k).config = s.config := by
  obtain h | h := checkBetweenSteps_cases s k <;> simp [h]

/-- A read of a register leaves all engines alone (R63). -/
theorem hostReadReg_engines {s t : State} {k r : Nat} (h : s.hostReadReg k r = .next t) :
    t.config = s.config ∧ t.engines = s.engines := by
  unfold State.hostReadReg at h
  split at h
  · cases h
  · split at h
    · cases h; exact ⟨rfl, rfl⟩
    · cases h; exact ⟨rfl, rfl⟩

/-- A read of `OUT` leaves all engines alone (R63). -/
theorem hostReadOut_engines {s t : State} {k j : Nat} (h : s.hostReadOut k j = .next t) :
    t.config = s.config ∧ t.engines = s.engines := by
  unfold State.hostReadOut at h
  split at h
  · cases h
  · split at h
    · cases h; exact ⟨rfl, rfl⟩
    · cases h; exact ⟨rfl, rfl⟩

theorem issue_enginesAfter {s t : State} {k : Nat} {w : CmdWord} {d : List Byte} (next : Option Event)
    (h : s.issue k w d = .next t) : t.config = s.config ∧ EnginesAfter s.config s.engines next t.engines := by
  cases he : s.engines[k]? with
  | none => simp [State.issue, he] at h
  | some e =>
    obtain ⟨r, -, hr⟩ | ⟨c, hc, hr⟩ := issue_cases (w := w) (d := d) he
    · cases h.symm.trans hr
      exact ⟨rfl, .unchanged⟩
    · cases h.symm.trans hr
      exact ⟨rfl, .issue he hc⟩

theorem engineTurn_enginesAfter {s t : State} {k : Nat} (next : Option Event) (h : s.engineTurn k = .next t) :
    t.config = s.config ∧ EnginesAfter s.config s.engines next t.engines := by
  obtain ⟨_, -, -, rfl⟩ | ⟨_, _, u, he, hb, hi, hx, rfl⟩ := engineTurn_next h
  · exact ⟨rfl, .unchanged⟩
  · obtain ⟨e, p, he', -, hm, rfl⟩ := exec_next hx
    obtain rfl := Option.some.inj (he.symm.trans he')
    exact ⟨by simp, by simpa using .move he hb hi hm⟩

/-- The engines after a step, and the parameters, which no step writes. -/
theorem step_enginesAfter {s t : State} (h : step s = .next t) :
    t.config = s.config ∧ EnginesAfter s.config s.engines s.agenda.head? t.engines := by
  obtain ⟨ev, rest, hag, hp⟩ | ⟨k, -, -, ht⟩ := step_next h
  · cases ev with
    | issue k w d => exact issue_enginesAfter (s := { s with agenda := rest }) _ hp
    | readReg k r =>
      obtain ⟨hc, he⟩ := hostReadReg_engines hp
      exact ⟨hc, he ▸ .unchanged⟩
    | readOut k j =>
      obtain ⟨hc, he⟩ := hostReadOut_engines hp
      exact ⟨hc, he ▸ .unchanged⟩
    | reset =>
      cases hp
      exact ⟨rfl, .reset (by rw [hag]; rfl)⟩
    | run k => exact engineTurn_enginesAfter (s := { s with agenda := rest }) _ hp
  · exact engineTurn_enginesAfter _ ht

end Sys2Proof.Machine

/-!
PROOFS. The statements about the state of the block: the tables, `STATUS`, reset, issue and host reads, whose turn it
is, and what an instruction and a step leave unchanged (10_state.md).
-/

namespace Sys2Proof.Machine

/-! ### The tables (R22 to R26) -/

/-- Settles O8, entry by entry. -/
theorem forwardTableContents : Obligations.ForwardTableContents := by
  unfold Obligations.ForwardTableContents
  decide

/-- The two ranges of the forward table are disjoint and each is increasing (R26). -/
theorem fwdRom_injective : Function.Injective fwdRom := by
  intro v u h
  have hv := forwardTableContents v
  have hu := forwardTableContents u
  rw [h, hu] at hv
  apply BitVec.eq_of_toNat_eq
  have := v.isLt
  have := u.isLt
  split at hv <;> split at hv <;> omega

/-- The reverse table holds the value `v` for the code `FWD[v]` and for no other (R23, R26). -/
theorem reverseTable_eq_some_iff {u : Byte} {v : Value} : reverseTable u = some v ↔ fwdRom v = u := by
  constructor
  · intro h
    simpa using List.find?_some h
  · rintro rfl
    have hmem : v ∈ (List.range 32).map (BitVec.ofNat 5) :=
      List.mem_map.mpr ⟨v.toNat, List.mem_range.mpr v.isLt, BitVec.ofNat_toNat 5 v⟩
    cases hfind : reverseTable (fwdRom v) with
    | none => exact absurd (by simp) (List.find?_eq_none.mp hfind v hmem)
    | some u => exact congrArg some (fwdRom_injective (by simpa using List.find?_some hfind))

/-- Settles O9: the reverse table is the search for the entry, and the entries differ. -/
theorem tablesAreMutualInverses : Obligations.TablesAreMutualInverses :=
  ⟨fun _ _ h => fwdRom_injective h, fun _ => reverseTable_eq_some_iff.mpr rfl,
    fun _ _ h => reverseTable_eq_some_iff.mp h⟩

/-! ### `STATUS` and reset (R36, R49) -/

/-- A concatenation of bit vectors in numbers. -/
theorem toNat_append_eq_add {m n : Nat} (x : BitVec m) (y : BitVec n) :
    (x ++ y).toNat = x.toNat * 2 ^ n + y.toNat := by
  rw [BitVec.toNat_append, ← Nat.shiftLeft_add_eq_or_of_lt y.isLt, Nat.shiftLeft_eq]

/-- Settles O32: the seven fields of R36 from bit 15 down, as a sum. -/
theorem statusWordLayout : Obligations.StatusWordLayout := by
  intro e
  have hbusy : e.busy.toNat = if e.state = .idle then 0 else 1 := by
    by_cases h : e.state = .idle <;> simp [Engine.busy, h]
  simp only [Engine.status, toNat_append_eq_add, BitVec.toNat_ofBool, hbusy, BitVec.ofNat_eq_ofNat,
    BitVec.toNat_ofNat]
  omega

/-- Settles O34: every engine of the reset state is the reset engine, whose registers R49 lists. -/
theorem resetValues : Obligations.ResetValues := by
  intro c
  refine ⟨List.length_replicate, fun e he => ?_⟩
  obtain rfl := List.eq_of_mem_replicate he
  decide

/-! ### Issue and host reads (R41, R46) -/

/-- A step with an agenda performs its first item. -/
theorem step_of_agenda {s : State} {ev : Event} {rest : List Event} (h : s.agenda = ev :: rest) :
    step s = State.perform { s with agenda := rest } ev := by
  simp [step, State.stepOnce, h]

theorem fits_iff {cfg : Config} {len : Nat} : cfg.fits len = true ↔ ∀ m, cfg.maxN = some m → len ≤ m := by
  unfold Config.fits
  cases cfg.maxN <;> simp

theorem opField_eq_ofNat (w : CmdWord) : opField w = BitVec.ofNat 4 (w.toNat / 4096) := by
  apply BitVec.eq_of_toNat_eq
  simp [opField, Nat.shiftRight_eq_div_pow]

theorem argField_eq_ofNat (w : CmdWord) : argField w = BitVec.ofNat 8 w.toNat := by
  apply BitVec.eq_of_toNat_eq
  simp [argField]

/-- The starting state of an accepted command, from the number in `OP` (R46, R71). -/
theorem startState_of_decode {w : CmdWord} {i : Instr} (h : decode w = .ok i) :
    startState i = if w.toNat / 4096 = 1 then .enc else if w.toNat / 4096 = 2 then .dchk else .tbl := by
  have hop : w.toNat / 4096 = i.op.toNat := by
    have hfield := congrArg BitVec.toNat ((opField_eq_ofNat w).symm.trans (fields_of_decode h).1)
    rw [BitVec.toNat_ofNat, Nat.mod_eq_of_lt (by have := w.isLt; omega)] at hfield
    exact hfield
  rw [hop]
  cases i <;> rfl

section Issue

variable {s : State} {k : Nat} {w : CmdWord} {d : List Byte} {rest : List Event} {e : Engine}

/-- An issue that is not accepted records its reason (R46). -/
theorem step_issue_of_error {r : RefuseReason} (hag : s.agenda = .issue k w d :: rest) (he : s.engines[k]? = some e)
    (hr : e.acceptCommand s.config w d = .error r) :
    step s = .next { s with agenda := rest, refusals := s.refusals ++ [⟨k, r⟩] } := by
  rw [step_of_agenda hag]
  simp only [State.perform, State.issue, he, hr]
  rfl

/-- An accepted issue captures the command (R46). -/
theorem step_issue_of_ok {c : Command} (hag : s.agenda = .issue k w d :: rest) (he : s.engines[k]? = some e)
    (hc : e.acceptCommand s.config w d = .ok c) :
    step s = .next { s with agenda := rest, engines := s.engines.set k (e.capture w c) } := by
  rw [step_of_agenda hag]
  simp only [State.perform, State.issue, he, hc]
  rfl

end Issue

/-- Settles O28: the answer of `acceptCommand` in each case, and the registers of `capture` in numbers. -/
theorem issueCapturesOrRefuses : Obligations.IssueCapturesOrRefuses := by
  intro s k w d rest e hag he
  refine ⟨fun c hs _ => ?_, fun r hs hc => ?_, fun c m hs hc hm hlen => ?_, fun c hs hc hm => ?_⟩
  · exact step_issue_of_error hag he (by simp [Engine.acceptCommand, Engine.busy, hs])
  · exact step_issue_of_error hag he (by simp [Engine.acceptCommand, Engine.busy, hs, hc])
  · have hfits : s.config.fits d.length = false := by simp [Config.fits, hm, hlen]
    exact step_issue_of_error hag he (by simp [Engine.acceptCommand, Engine.busy, hs, hc, hfits])
  · have hacc : e.acceptCommand s.config w d = .ok c :=
      acceptCommand_eq_ok.mpr ⟨busy_eq_false_iff.mpr hs, hc, fits_iff.mpr hm⟩
    obtain ⟨hdec, hdata, -⟩ := check_eq_ok.mp hc
    rw [step_issue_of_ok hag he hacc]
    simp only [Engine.capture, Engine.flagsIssued, opField_eq_ofNat, argField_eq_ofNat, hdata,
      startState_of_decode hdec]

/-- Settles O30: the registers `readReg` answers, by number. -/
theorem hostReadsRegistersZeroToFour : Obligations.HostReadsRegistersZeroToFour := by
  intro s k r rest e hag he
  rw [step_of_agenda hag]
  refine ⟨fun hr => ?_, fun v hv => ?_⟩
  · have hread : e.readReg r = none := by
      obtain ⟨n, rfl⟩ := Nat.exists_eq_add_of_le' hr
      rfl
    simp only [State.perform, State.hostReadReg, he, hread]
    rfl
  · have hread : e.readReg r = some v := by
      obtain ⟨rfl, rfl⟩ | ⟨rfl, rfl⟩ | ⟨rfl, rfl⟩ | ⟨rfl, rfl⟩ | ⟨rfl, rfl⟩ := hv <;> rfl
    simp only [State.perform, State.hostReadReg, he, hread]
    rfl

/-! ### Whose turn it is (R239) -/

/-- The turn of a busy engine whose captured word is `i` runs `i`. -/
theorem engineTurn_of_busy {s : State} {k : Nat} {e : Engine} {i : Instr} (he : s.engines[k]? = some e)
    (hs : e.state ≠ .idle) (hi : decode e.word = .ok i) :
    s.engineTurn k = afterTurn k (exec i { s with turn := k }) := by
  simp [State.engineTurn, he, busy_eq_true_iff.mpr hs, hi]

/-- Settles O25: the item is the turn of a busy engine. -/
theorem stepRunsTheLatchedInstruction : Obligations.StepRunsTheLatchedInstruction := by
  intro s k rest e i hag he hs hi
  rw [step_of_agenda hag]
  exact engineTurn_of_busy (s := { s with agenda := rest }) he hs hi

/-- A placed word that decodes is captured by engine 0, whose turn is next (log 14). -/
theorem withFetchWord_of_decode {s : State} {e : Engine} {w : CmdWord} {i : Instr} (he : s.engines[0]? = some e)
    (hi : decode w = .ok i) :
    s.withFetchWord 16 w.toNat =
      { s.setEngine 0 (({ e with state := .idle } : Engine).capture w ⟨i, []⟩) with agenda := .run 0 :: s.agenda } := by
  have hword : tableWord 16 w.toNat = some w := by simp [tableWord, w.isLt]
  have hacc : ({ e with state := .idle } : Engine).acceptCommand s.config w [] = .ok ⟨i, []⟩ :=
    acceptCommand_eq_ok.mpr ⟨rfl, check_eq_ok.mpr ⟨hi, rfl, by simp [Command.dataAllowed]⟩,
      fits_iff.mpr fun m _ => Nat.zero_le m⟩
  simp [State.withFetchWord, State.loadWord, hword, he, hacc]

/-- Settles O26: the placed word is captured, and the turn that follows runs it. -/
theorem placedWordRunsNext : Obligations.PlacedWordRunsNext := by
  intro s e w i he hi
  rw [withFetchWord_of_decode he hi, step_of_agenda rfl]
  have hlen : 0 < s.engines.length := (List.getElem?_eq_some_iff.mp he).1
  exact engineTurn_of_busy (List.getElem?_set_self hlen) (startState_ne_idle i)
    ((congrArg decode (capture_word _ hi)).trans hi)

/-! ### What an instruction and a step leave unchanged -/

/-- Settles O22: `exec` is one move of the engine whose turn it is, and a move keeps the captured command. -/
theorem instructionFrame : Obligations.InstructionFrame := by
  intro i s t h
  obtain ⟨e, p, he, -, hm, rfl⟩ := exec_next h
  obtain ⟨hopc, harg, hn, hlast, hin⟩ := hm.keeps_command
  have hlen : s.turn < s.engines.length := (List.getElem?_eq_some_iff.mp he).1
  exact ⟨rfl, rfl, rfl, rfl, rfl, List.length_set, fun k hk => List.getElem?_set_ne hk.symm, e, p.engine, he,
    List.getElem?_set_self hlen, hopc, harg, hn, hlast, fun a => by rw [hin]⟩

/-- An engine of the list after engine `k'` has become `g`: `g` itself, or as it was. -/
theorem getElem?_set_cases {es : List Engine} {k k' : Nat} {e f g : Engine} (he : es[k]? = some e)
    (hf : (es.set k' g)[k]? = some f) : (k' = k ∧ f = g) ∨ f = e := by
  by_cases hk : k' = k
  · subst hk
    rw [List.getElem?_set_self (List.getElem?_eq_some_iff.mp he).1] at hf
    exact .inl ⟨rfl, (Option.some.inj hf).symm⟩
  · rw [List.getElem?_set_ne hk, he] at hf
    exact .inr (Option.some.inj hf).symm

/-- Settles O57: an issue makes an idle engine busy, and a move of a busy engine that stays busy keeps the registers
the host reads; every other step but reset leaves the engine as it was. -/
theorem resultChangesOnlyAtIssueCompletionReset : Obligations.ResultChangesOnlyAtIssueCompletionReset := by
  intro s t k e f h he hf hbusy hreset
  suffices hkept : f = e ∨ (e.busy = true ∧ f.errIndex = e.errIndex ∧ f.errChar = e.errChar ∧ f.rval = e.rval ∧
      f.outLen = e.outLen ∧ f.status = e.status) by
    obtain rfl | ⟨hb, herr, hchar, hrval, hlen, hstatus⟩ := hkept
    · exact ⟨rfl, rfl, rfl, rfl, rfl, fun _ => rfl⟩
    · exact ⟨herr, hchar, hrval, hlen, hstatus, fun hidle => by simp [hb] at hidle⟩
  have hafter := (step_enginesAfter h).2
  generalize t.engines = es at hafter hf
  cases hafter with
  | unchanged => exact .inl (Option.some.inj (hf.symm.trans he))
  | @issue _ e' w d c he' hc =>
    obtain ⟨rfl, rfl⟩ | rfl := getElem?_set_cases he hf
    · obtain rfl := Option.some.inj (he.symm.trans he')
      obtain ⟨hidle, -, -⟩ := acceptCommand_eq_ok.mp hc
      exact absurd (hbusy.symm.trans hidle) (by simp [startState_ne_idle])
    · exact .inl rfl
  | @move _ e' i p he' hb hi hm =>
    obtain ⟨rfl, rfl⟩ | rfl := getElem?_set_cases he hf
    · obtain rfl := Option.some.inj (he.symm.trans he')
      exact .inr ⟨hb, hm.keeps_result hb (hbusy ▸ hb)⟩
    · exact .inl rfl
  | reset hr => exact absurd hr hreset

end Sys2Proof.Machine

/-!
PROOFS. Every step keeps the invariant of a reachable state (10_state.md R27 to R40): reset meets it, an accepted
command starts with it, and each move of an engine keeps it.
-/

namespace Sys2Proof.Machine

/-! ### The invariant by sequencing state -/

section Phase

variable {e : Engine}

theorem phaseInv_idle (hs : e.state = .idle) :
    e.PhaseInv ↔ e.outLen = e.out.length ∧ e.out.length ≤ 8 * ceilDiv e.n 5 := by
  rw [Engine.PhaseInv, hs]

theorem phaseInv_tbl (hs : e.state = .tbl) :
    e.PhaseInv ↔ (∃ i, decode e.word = .ok i ∧ i.takesData = false) ∧ e.input = [] ∧ e.out = [] := by
  rw [Engine.PhaseInv, hs]

theorem phaseInv_enc (hs : e.state = .enc) :
    e.PhaseInv ↔ decode e.word = .ok .enc ∧ e.g.toNat = e.i % 5 ∧ e.nb.toNat = (8 * e.g.toNat) % 5 ∧
      e.out.length = 8 * (e.i / 5) + (8 * e.g.toNat) / 5 := by
  rw [Engine.PhaseInv, hs]

theorem phaseInv_dchk (hs : e.state = .dchk) :
    e.PhaseInv ↔ decode e.word = .ok .dec ∧ e.out = [] ∧ ∀ c ∈ e.input.take e.i, classify c ≠ .invalid := by
  rw [Engine.PhaseInv, hs]

theorem phaseInv_dec (hs : e.state = .dec) :
    e.PhaseInv ↔ decode e.word = .ok .dec ∧ e.g.toNat = e.i % 8 ∧
      (e.stop = false → e.nb.toNat = (5 * e.g.toNat) % 8) ∧ e.out.length ≤ (5 * e.i) / 8 ∧
      ∀ c ∈ e.input, classify c ≠ .invalid := by
  rw [Engine.PhaseInv, hs]

end Phase

/-! ### Reset and issue -/

theorem Engine.reset_inv (c : Config) : Engine.reset.Inv c :=
  ⟨rfl, fits_iff.mpr fun m _ => Nat.zero_le m, Nat.zero_le _, by decide, by decide, fun _ => ⟨rfl, rfl⟩, rfl,
    by decide, Nat.zero_le _, by decide, by decide, (phaseInv_idle rfl).mpr ⟨rfl, Nat.zero_le _⟩⟩

/-- Settles O50: `NUM_ENGINES` engines, each the reset engine. -/
theorem resetMeetsTheInvariant : Obligations.ResetMeetsTheInvariant := by
  intro c hc
  refine ⟨hc, List.length_replicate, fun e he => ?_⟩
  obtain rfl := List.eq_of_mem_replicate he
  exact Engine.reset_inv c

/-- Each command starts with the invariant of its first sequencing state. -/
theorem capture_phaseInv {w : CmdWord} {d : List Byte} {cmd : Command} (e : Engine) (h : check w d = .ok cmd) :
    (e.capture w cmd).PhaseInv := by
  obtain ⟨hdec, -, hdata⟩ := check_eq_ok.mp h
  have hword : decode (e.capture w cmd).word = .ok cmd.instr := (congrArg decode (capture_word e hdec)).trans hdec
  have hstate : (e.capture w cmd).state = startState cmd.instr := rfl
  obtain ⟨i, data⟩ := cmd
  cases i with
  | enc => exact (phaseInv_enc hstate).mpr (by simp [hword])
  | dec => exact (phaseInv_dchk hstate).mpr ⟨hword, rfl, by simp⟩
  | fwd v => exact (phaseInv_tbl hstate).mpr ⟨⟨_, hword, rfl⟩, List.isEmpty_iff.mp hdata, rfl⟩
  | rev c => exact (phaseInv_tbl hstate).mpr ⟨⟨_, hword, rfl⟩, List.isEmpty_iff.mp hdata, rfl⟩

/-- An accepted command leaves the engine in the invariant, whatever it was before (R46). -/
theorem capture_inv {c : Config} {e : Engine} {w : CmdWord} {d : List Byte} {cmd : Command}
    (h : e.acceptCommand c w d = .ok cmd) : (e.capture w cmd).Inv c := by
  obtain ⟨-, hcheck, hfits⟩ := acceptCommand_eq_ok.mp h
  obtain ⟨hdec, rfl, -⟩ := check_eq_ok.mp hcheck
  have hop : (opField w).toNat ≤ 4 := (fields_of_decode hdec).1 ▸ op_toNat_le cmd.instr
  exact ⟨rfl, hfits, Nat.zero_le _, Nat.one_pos, by simp, fun _ => ⟨rfl, rfl⟩, rfl, hop, Nat.zero_le _, by simp,
    fun _ => ⟨rfl, rfl, rfl, rfl⟩, capture_phaseInv e hcheck⟩

/-! ### The three outcomes of a move -/

section Outcome

variable {c : Config} {e : Engine} (h : e.Inv c)
include h

theorem Engine.Inv.n_eq : e.n = e.input.length := by
  obtain ⟨hn, -⟩ := h
  exact hn

theorem Engine.Inv.i_le : e.i ≤ e.n := by
  obtain ⟨-, -, hi, -⟩ := h
  exact hi

theorem Engine.Inv.acc_lt : e.acc.toNat < 2 ^ e.nb.toNat := by
  obtain ⟨-, -, -, hacc, -⟩ := h
  exact hacc

theorem Engine.Inv.phase : e.PhaseInv := by
  obtain ⟨-, -, -, -, -, -, -, -, -, -, -, hphase⟩ := h
  exact hphase

/-- While an engine is busy no error stands in its status, and `RVAL` is 0 (R36, R62). -/
theorem Engine.Inv.no_result_of_busy (hb : e.busy = true) : e.err = false ∧ e.rval = 0 := by
  obtain ⟨-, -, -, -, herr, -, -, -, -, -, hbusy, -⟩ := h
  obtain ⟨hnot, hrval, -, -⟩ := hbusy hb
  refine ⟨?_, hrval⟩
  by_contra hne
  obtain ⟨hdone, -, -⟩ := herr (by simpa using hne)
  exact absurd (hdone.symm.trans hnot) (by decide)

/-- An engine at work keeps the invariant when its cursor, accumulator and sequencing state do. -/
theorem Engine.Inv.worksTo (hb : e.busy = true) {f : Engine} {st : EngineState} (hf : e.WorksTo f st)
    (hi : f.i ≤ f.n) (hacc : f.acc.toNat < 2 ^ f.nb.toNat) (hphase : f.PhaseInv) : f.Inv c := by
  obtain ⟨herr, -⟩ := h.no_result_of_busy hb
  obtain ⟨hn, hfits, -, -, -, hnoerr, hcode, hlast, hindex, hrval, hbusy, -⟩ := h
  obtain ⟨i, g, acc, nb, stop, out, rfl⟩ := hf
  exact ⟨hn, hfits, hi, hacc, fun h1 => absurd (herr.symm.trans h1) (by decide), hnoerr, hcode, hlast, hindex, hrval,
    fun _ => hbusy hb, hphase⟩

/-- A completion keeps the invariant when the result registers are in range (R47). -/
theorem Engine.Inv.completeOk (hb : e.busy = true) {v : Byte} {out : List Byte} (hv : v.toNat < 128)
    (hout : out.length ≤ 8 * ceilDiv e.n 5) : ({ e with rval := v, out := out } : Engine).completeOk.Inv c := by
  obtain ⟨herr, -⟩ := h.no_result_of_busy hb
  obtain ⟨hn, hfits, hi, hacc, -, hnoerr, -, hlast, hindex, -, -, -⟩ := h
  exact ⟨hn, hfits, hi, hacc, by simp, fun _ => hnoerr herr, rfl, hlast, hindex, hv, by simp,
    (phaseInv_idle rfl).mpr ⟨rfl, hout⟩⟩

/-- The error keeps the invariant when its index is within the input (R203). -/
theorem Engine.Inv.raiseInvalidCharacter {j : Nat} (hj : j ≤ e.n) (ch : Byte) :
    (e.raiseInvalidCharacter j ch).Inv c := by
  obtain ⟨hn, hfits, hi, hacc, -, -, -, hlast, -, -, -, -⟩ := h
  exact ⟨hn, hfits, hi, hacc, fun _ => ⟨rfl, rfl, rfl⟩, by simp, rfl, hlast, hj, by simp, by simp,
    (phaseInv_idle rfl).mpr ⟨rfl, Nat.zero_le _⟩⟩

end Outcome

/-! ### The accumulator (R32) -/

/-- The bits kept in the accumulator are below `2^NB`. -/
theorem lowBits_lt (t k : Nat) : (BitVec.ofNat 7 (t &&& ((1 <<< k) - 1))).toNat < 2 ^ k := by
  rw [Nat.one_shiftLeft, Nat.and_two_pow_sub_one_eq_mod, BitVec.toNat_ofNat]
  exact lt_of_le_of_lt (Nat.mod_le _ _) (Nat.mod_lt _ (Nat.two_pow_pos k))

/-- Every bit is either sent out in a symbol or kept (R127). -/
theorem encSymbols_bits (t : Nat) {n : Nat} (hn : 5 ≤ n) : 5 * (encSymbols t n).length + encBitsLeft n = n := by
  unfold encSymbols encBitsLeft
  split <;> simp <;> omega

theorem encBitsLeft_lt {n : Nat} (hn : n < 15) : encBitsLeft n < 5 := by
  unfold encBitsLeft
  split <;> omega

/-- Every bit is either sent out in a byte or kept, and fewer than eight are kept (R150). -/
theorem accumulate_bits (acc : Nat) {nb : Nat} (v : Value) (hnb : nb < 8) :
    ∃ bs acc' nb', accumulate acc nb v = (bs, acc', nb') ∧ 8 * bs.length + nb' = nb + 5 ∧ nb' < 8 ∧
      (BitVec.ofNat 7 acc').toNat < 2 ^ nb' := by
  simp only [accumulate]
  split
  · exact ⟨_, _, _, rfl, by simp; omega, by omega, lowBits_lt _ _⟩
  · exact ⟨_, _, _, rfl, by simp, by omega, lowBits_lt _ _⟩

/-- A byte step sends out `k` symbols and keeps the rest of the bits, fewer than five (R127). -/
theorem encByte_bits (e : Engine) (b : Byte) (hnb : e.nb.toNat < 5) :
    ∃ k, (e.encByte b).out.length = e.out.length + k ∧ 5 * k + (e.encByte b).nb.toNat = e.nb.toNat + 8 ∧
      (e.encByte b).nb.toNat < 5 ∧ (e.encByte b).acc.toNat < 2 ^ (e.encByte b).nb.toNat := by
  have hleft : encBitsLeft (e.nb.toNat + 8) < 5 := encBitsLeft_lt (by omega)
  have hnb' : (e.encByte b).nb.toNat = encBitsLeft (e.nb.toNat + 8) := Nat.mod_eq_of_lt (by omega)
  rw [hnb']
  exact ⟨_, List.length_append, encSymbols_bits _ (by omega), hleft, lowBits_lt _ _⟩

/-- R35 for `ENC`, counted in bits: of the `8 I` bits read, five are in each symbol and `NB` are pending. -/
theorem encBits_iff {i nb len : Nat} :
    nb = 8 * (i % 5) % 5 ∧ len = 8 * (i / 5) + 8 * (i % 5) / 5 ↔ 5 * len + nb = 8 * i ∧ nb < 5 := by
  constructor
  · rintro ⟨rfl, rfl⟩
    omega
  · rintro ⟨hsum, hnb⟩
    omega

/-- The last symbol and the padding fill the output up to the end of its group (R124, R128). -/
theorem encTail_length {e : Engine} (hg : e.g.toNat < 5) :
    8 * e.g.toNat / 5 + e.encTail.length = 8 * ceilDiv e.g.toNat 5 := by
  unfold Engine.encTail ceilDiv
  split
  next h0 => simp [h0]
  next hne =>
    have hpos : e.g.toNat ≠ 0 := fun h0 => hne (BitVec.eq_of_toNat_eq h0)
    have hrest : 8 * e.g.toNat % 5 ≠ 0 := by omega
    have hlast : (8 * e.g.toNat + 5 - 1) / 5 = 8 * e.g.toNat / 5 + 1 := by omega
    simp only [List.length_cons, List.length_replicate]
    omega

/-! ### The moves -/

section Moves

variable {c : Config} {e : Engine}

/-- A byte step of `ENC` reads eight more bits, so the count of R35 goes on (R127). -/
theorem encByte_inv (h : e.Inv c) (hs : e.state = .enc) (hi : e.i < e.n) (b : Byte) : (e.encByte b).Inv c := by
  obtain ⟨hword, hg, hnb, hout⟩ := (phaseInv_enc hs).mp h.phase
  rw [hg] at hnb hout
  obtain ⟨hsum, hlt⟩ := encBits_iff.mp ⟨hnb, hout⟩
  obtain ⟨k, hout', hbits, hleft, hacc⟩ := encByte_bits e b hlt
  have hg' : (e.encByte b).g.toNat = (e.i + 1) % 5 := by
    change (e.g.toNat + 1) % 5 % 8 = _
    rw [hg, Nat.mod_add_mod, Nat.mod_eq_of_lt (by omega)]
  have hsum' : 5 * (e.encByte b).out.length + (e.encByte b).nb.toNat = 8 * (e.i + 1) := by omega
  refine h.worksTo (by simp [hs]) (st := .enc) ⟨_, _, _, _, _, _, by rw [← hs]; rfl⟩ hi hacc ?_
  refine (phaseInv_enc (by exact hs)).mpr ⟨hword, hg', ?_⟩
  rw [hg']
  exact encBits_iff.mpr ⟨hsum', hleft⟩

/-- The end step of `ENC` fills the last group, so `OUT` has the length of the encoding (R128). -/
theorem encEnd_inv (h : e.Inv c) (hs : e.state = .enc) (hi : e.i = e.n) : e.encEnd.Inv c := by
  obtain ⟨-, hg, -, hout⟩ := (phaseInv_enc hs).mp h.phase
  obtain ⟨-, hrval⟩ := h.no_result_of_busy (by simp [hs])
  have htail := encTail_length (e := e) (by omega)
  have hlen : (e.out ++ e.encTail).length ≤ 8 * ceilDiv e.n 5 := by
    unfold ceilDiv at htail ⊢
    rw [List.length_append]
    omega
  exact h.completeOk (by simp [hs]) (v := e.rval) (by simp [hrval]) hlen

/-- A step of validation goes past a character that is not `INVALID`, or ends in the error (R161). -/
theorem dchkChar_inv (h : e.Inv c) (hs : e.state = .dchk) (hi : e.i < e.n) {ch : Byte}
    (hch : e.readIn e.i = some ch) : (e.dchkChar ch).Inv c := by
  by_cases hclass : classify ch = .invalid
  · have hraise : e.dchkChar ch = e.raiseInvalidCharacter e.i ch := by simp [Engine.dchkChar, hclass]
    exact hraise ▸ h.raiseInvalidCharacter hi.le ch
  · have hnext : e.dchkChar ch = { e with i := e.i + 1 } := by
      unfold Engine.dchkChar
      split
      next hinv => exact absurd hinv hclass
      · rfl
      · rfl
    obtain ⟨hword, hout, hvalid⟩ := (phaseInv_dchk hs).mp h.phase
    obtain ⟨-, hget⟩ := readIn_eq_some.mp hch
    rw [hnext]
    refine h.worksTo (by simp [hs]) (st := .dchk) ⟨_, _, _, _, _, _, by rw [← hs]⟩ hi h.acc_lt ?_
    refine (phaseInv_dchk (by exact hs)).mpr ⟨hword, hout, ?_⟩
    change ∀ x ∈ e.input.take (e.i + 1), _
    rw [List.take_add_one, hget]
    intro x hx
    obtain hx | hx := List.mem_append.mp hx
    · exact hvalid x hx
    · exact List.mem_singleton.mp hx ▸ hclass

/-- After validation the decoding pass starts on a text without an `INVALID` code (R162). -/
theorem dchkEnd_inv (h : e.Inv c) (hs : e.state = .dchk) (hi : e.i = e.n) : e.dchkEnd.Inv c := by
  obtain ⟨hword, hout, hvalid⟩ := (phaseInv_dchk hs).mp h.phase
  have hall : e.input.take e.i = e.input := List.take_of_length_le (by rw [hi, h.n_eq])
  refine h.worksTo (by simp [hs]) (st := .dec) ⟨_, _, _, _, _, _, rfl⟩ (Nat.zero_le _) Nat.one_pos ?_
  exact (phaseInv_dec rfl).mpr ⟨hword, rfl, fun _ => rfl, by simp [Engine.dchkEnd, hout], hall ▸ hvalid⟩

/-- What the case analysis of R163 makes of the accumulator, `STOP` and `OUT` when the code is not `INVALID`. -/
theorem decAccept_eq (h : e.Inv c) (hs : e.state = .dec) {ch : Byte} (hch : classify ch ≠ .invalid) :
    ∃ acc nb stop out, (e.decAccept ch).engine = { e with acc := acc, nb := nb, stop := stop, out := out } ∧
      acc.toNat < 2 ^ nb.toNat ∧ (stop = false → nb.toNat = (5 * (e.g.toNat + 1)) % 8) ∧
      out.length ≤ 5 * (e.i + 1) / 8 := by
  obtain ⟨-, hg, hnb, hout, -⟩ := (phaseInv_dec hs).mp h.phase
  have hacc := h.acc_lt
  unfold Engine.decAccept
  split
  next hstop => exact ⟨_, _, _, _, rfl, hacc, by simp [hstop], by omega⟩
  next hstop =>
    have hnb := hnb (by simpa using hstop)
    split
    · exact ⟨_, _, _, _, rfl, hacc, by simp, by omega⟩
    next v _ =>
      obtain ⟨bs, acc', nb', hv, hbits, hlt, hacc'⟩ := accumulate_bits e.acc.toNat v e.nb.isLt
      have hnb' : (BitVec.ofNat 3 nb').toNat = nb' := Nat.mod_eq_of_lt hlt
      have hpending : e.nb.toNat = 5 * e.i % 8 := by omega
      rw [hv]
      refine ⟨_, _, _, _, rfl, hnb'.symm ▸ hacc', fun _ => by omega, ?_⟩
      simp only [Engine.appendAll_out, List.length_append]
      omega
    next hinv => exact absurd hinv hch

/-- A step of decoding keeps the count of bits, and a group boundary starts afresh (R163). -/
theorem decChar_inv (h : e.Inv c) (hs : e.state = .dec) (hi : e.i < e.n) {ch : Byte} (hch : e.readIn e.i = some ch) :
    (e.decChar ch).engine.Inv c := by
  obtain ⟨hword, hg, -, -, hvalid⟩ := (phaseInv_dec hs).mp h.phase
  have hmem : ch ∈ e.input := List.mem_of_getElem? (readIn_eq_some.mp hch).2
  obtain ⟨acc, nb, stop, out, hx, hacc, hnb, hout⟩ := decAccept_eq h hs (hvalid ch hmem)
  change (e.decAccept ch).engine.decAdvance.Inv c
  rw [hx, decAdvance_eq]
  split
  next h7 =>
    have h7 : e.g.toNat = 7 := h7
    refine h.worksTo (by simp [hs]) (st := .dec) ⟨_, _, _, _, _, _, by rw [← hs]⟩ hi Nat.one_pos ?_
    exact (phaseInv_dec (by exact hs)).mpr ⟨hword, (show 0 = (e.i + 1) % 8 by omega), fun _ => rfl, hout, hvalid⟩
  next h7 =>
    have h7 : e.g.toNat ≠ 7 := h7
    have hg' : (BitVec.ofNat 3 (e.g.toNat + 1)).toNat = e.g.toNat + 1 := Nat.mod_eq_of_lt (by omega)
    refine h.worksTo (by simp [hs]) (st := .dec) ⟨_, _, _, _, _, _, by rw [← hs]⟩ hi hacc ?_
    exact (phaseInv_dec (by exact hs)).mpr
      ⟨hword, hg'.trans (show e.g.toNat + 1 = (e.i + 1) % 8 by omega), by rwa [hg'], hout, hvalid⟩

theorem fwdRom_lt (v : Value) : (fwdRom v).toNat < 128 := by
  have := v.isLt
  rw [forwardTableContents v]
  split <;> omega

/-- A completion that leaves `OUT` as it stands keeps the invariant. -/
theorem completeOk_inv (h : e.Inv c) (hb : e.busy = true) {v : Byte} (hv : v.toNat < 128) :
    ({ e with rval := v } : Engine).completeOk.Inv c :=
  h.completeOk hb hv (h.phase.out_length_le h.i_le)

/-- A reverse read leaves at most 0x20 in `RVAL`, or the error with index 0 (R103). -/
theorem revStep_inv (h : e.Inv c) (hb : e.busy = true) (ch : Byte) : (e.revStep ch).Inv c := by
  unfold Engine.revStep
  split
  next v _ => exact completeOk_inv h hb (by have := v.isLt; simp; omega)
  · exact completeOk_inv h hb (by decide)
  · exact h.raiseInvalidCharacter (Nat.zero_le _) ch

/-- Every move of an engine keeps its invariant. -/
theorem Engine.Move.keeps_inv {i : Instr} {p : Progress} (hm : e.Move i p) (h : e.Inv c) : p.engine.Inv c := by
  cases hm with
  | encByte hs hi _ => exact encByte_inv h hs hi _
  | encEnd hs hi => exact encEnd_inv h hs hi
  | dchkChar hs hi hc => exact dchkChar_inv h hs hi hc
  | dchkEnd hs hi => exact dchkEnd_inv h hs hi
  | decChar hs hi hc => exact decChar_inv h hs hi hc
  | decEnd hs _ =>
    have hb : e.busy = true := by simp [hs]
    exact completeOk_inv h hb (by simp [(h.no_result_of_busy hb).2])
  | fwd v hs => exact completeOk_inv h (by simp [hs]) (fwdRom_lt v)
  | rev ch hs => exact revStep_inv h (by simp [hs]) ch

end Moves

/-! ### The state -/

/-- Settles O49: whatever a step makes of the engines, each of them is in the invariant. -/
theorem stepKeepsTheInvariant : Obligations.StepKeepsTheInvariant := by
  intro s t ⟨hwf, hlen, hinv⟩ h
  obtain ⟨hconfig, hafter⟩ := step_enginesAfter h
  unfold State.Inv
  rw [hconfig]
  generalize t.engines = es at hafter
  cases hafter with
  | unchanged => exact ⟨hwf, hlen, hinv⟩
  | issue _ hc =>
    refine ⟨hwf, List.length_set.trans hlen, fun f hf => ?_⟩
    obtain hf | rfl := List.mem_or_eq_of_mem_set hf
    · exact hinv f hf
    · exact capture_inv hc
  | move he _ _ hm =>
    refine ⟨hwf, List.length_set.trans hlen, fun f hf => ?_⟩
    obtain hf | rfl := List.mem_or_eq_of_mem_set hf
    · exact hinv f hf
    · exact hm.keeps_inv (hinv _ (List.mem_of_getElem? he))
  | reset _ =>
    refine ⟨hwf, List.length_map _ |>.trans hlen, fun f hf => ?_⟩
    obtain ⟨_, _, rfl⟩ := List.mem_map.mp hf
    exact Engine.reset_inv _

end Sys2Proof.Machine

/-!
PROOFS. An item of the agenda has an effect on the engine it addresses that depends on nothing but that engine and
the parameters, so the steps of the engines may interleave in any order (20_memory.md R64).
-/

namespace Sys2Proof.Machine

open Host (Outcome)

/-! ### The effect of an item on the engine it addresses -/

/-- What an item of the agenda does for the engine `k` it addresses: the engine it leaves, and what it adds to the
replies and marks. -/
structure Effect (k : Nat) where
  engine : Engine
  replies : List Reply := []
  refusals : List RefuseReason := []
  faults : List FaultReason := []
  /-- Every reply is one to a read of engine `k`. -/
  replies_own : ∀ r ∈ replies, ∀ j, r.concerns j = (k == j) := by simp

/-- The state `s` after the effect, with the turn at `turn`. -/
def Effect.applyTo {k : Nat} (x : Effect k) (s : State) (turn : Nat) : State :=
  { s with
    turn := turn
    engines := s.engines.set k x.engine
    replies := s.replies ++ x.replies
    refusals := s.refusals ++ x.refusals.map fun r => ⟨k, r⟩
    faults := s.faults ++ x.faults.map fun r => ⟨k, r⟩ }

/-- Performing the item does `x`, in every state with the parameters `cfg` in which engine `k` is `e`. -/
def Event.HasEffect (ev : Event) (cfg : Config) {k : Nat} (e : Engine) (x : Effect k) : Prop :=
  ∀ u : State, u.config = cfg → u.engines[k]? = some e → ∃ turn, u.perform ev = .next (x.applyTo u turn)

/-- Writing back the engine that is there changes nothing. -/
theorem set_of_getElem? {es : List Engine} {k : Nat} {e : Engine} (he : es[k]? = some e) : es.set k e = es := by
  obtain ⟨hk, rfl⟩ := List.getElem?_eq_some_iff.mp he
  exact List.set_getElem_self hk

section Effects

variable {s : State} {k : Nat} {e : Engine}

theorem applyTo_setEngine (f : Engine) : ({ engine := f } : Effect k).applyTo s s.turn = s.setEngine k f := by
  simp [Effect.applyTo, State.setEngine]

theorem applyTo_same (he : s.engines[k]? = some e) : ({ engine := e } : Effect k).applyTo s s.turn = s := by
  simp [Effect.applyTo, set_of_getElem? he]

theorem applyTo_refuse (he : s.engines[k]? = some e) (r : RefuseReason) :
    ({ engine := e, refusals := [r] } : Effect k).applyTo s s.turn = s.refuse k r := by
  simp [Effect.applyTo, State.refuse, set_of_getElem? he]

theorem applyTo_reply (he : s.engines[k]? = some e) (r : Reply) (hr : ∀ q ∈ [r], ∀ j, q.concerns j = (k == j)) :
    ({ engine := e, replies := [r], replies_own := hr } : Effect k).applyTo s s.turn = s.reply r := by
  simp [Effect.applyTo, State.reply, set_of_getElem? he]

end Effects

/-- The fault the check between steps finds on an engine, if any (R35). -/
def Engine.betweenStepsFaults (e : Engine) : List FaultReason :=
  if e.betweenStepsOk then [] else [.invariantBroken]

/-- The check after a turn looks at the engine alone. -/
theorem checkBetweenSteps_eq {s : State} {k : Nat} {e : Engine} (he : s.engines[k]? = some e) :
    s.checkBetweenSteps k = s.recordFaults k e.betweenStepsFaults := by
  unfold State.checkBetweenSteps Engine.betweenStepsFaults
  simp only [he]
  split
  · simp [State.recordFaults]
  · rfl

section HasEffect

variable (cfg : Config) (k : Nat) (e : Engine)

/-- An issue captures the command or records the refusal (R46). -/
theorem issue_hasEffect (w : CmdWord) (d : List Byte) : ∃ x : Effect k, (Event.issue k w d).HasEffect cfg e x := by
  cases hc : e.acceptCommand cfg w d with
  | error r =>
    refine ⟨{ engine := e, refusals := [r] }, fun u hcfg he => ⟨u.turn, ?_⟩⟩
    subst hcfg
    rw [applyTo_refuse he]
    simp [State.perform, State.issue, he, hc]
  | ok c =>
    refine ⟨{ engine := e.capture w c }, fun u hcfg he => ⟨u.turn, ?_⟩⟩
    subst hcfg
    rw [applyTo_setEngine]
    simp [State.perform, State.issue, he, hc]

/-- A read of a register replies or records the refusal (R41). -/
theorem readReg_hasEffect (r : Nat) : ∃ x : Effect k, (Event.readReg k r).HasEffect cfg e x := by
  cases hr : e.readReg r with
  | none =>
    refine ⟨{ engine := e, refusals := [.access] }, fun u _ he => ⟨u.turn, ?_⟩⟩
    rw [applyTo_refuse he]
    simp [State.perform, State.hostReadReg, he, hr]
  | some v =>
    have hown : ∀ q ∈ [Reply.reg k r v], ∀ i, q.concerns i = (k == i) := by simp [Reply.concerns]
    refine ⟨{ engine := e, replies := [.reg k r v], replies_own := hown }, fun u _ he => ⟨u.turn, ?_⟩⟩
    rw [applyTo_reply he]
    simp [State.perform, State.hostReadReg, he, hr]

/-- A read of `OUT` replies or records the refusal (R53). -/
theorem readOut_hasEffect (j : Nat) : ∃ x : Effect k, (Event.readOut k j).HasEffect cfg e x := by
  cases hr : e.readOut j with
  | none =>
    refine ⟨{ engine := e, refusals := [.access] }, fun u _ he => ⟨u.turn, ?_⟩⟩
    rw [applyTo_refuse he]
    simp [State.perform, State.hostReadOut, he, hr]
  | some b =>
    have hown : ∀ q ∈ [Reply.out k j b], ∀ i, q.concerns i = (k == i) := by simp [Reply.concerns]
    refine ⟨{ engine := e, replies := [.out k j b], replies_own := hown }, fun u _ he => ⟨u.turn, ?_⟩⟩
    rw [applyTo_reply he]
    simp [State.perform, State.hostReadOut, he, hr]

/-- The turn of an idle engine passes (log 5). -/
theorem run_hasEffect_of_idle (hb : e.busy = false) : ∃ x : Effect k, (Event.run k).HasEffect cfg e x := by
  refine ⟨{ engine := e }, fun u _ he => ⟨u.turn, ?_⟩⟩
  rw [applyTo_same he]
  simp [State.perform, State.engineTurn, he, hb]

/-- The turn of a busy engine runs the step of its command and the check (R239, R208). -/
theorem run_hasEffect_of_busy {i : Instr} {p : Progress} (hb : e.busy = true) (hi : decode e.word = .ok i)
    (hp : engineStep i e = .next p) : ∃ x : Effect k, (Event.run k).HasEffect cfg e x := by
  refine ⟨{ engine := p.engine, faults := p.faults ++ p.engine.betweenStepsFaults }, fun u _ he => ⟨k, ?_⟩⟩
  have hlen : k < u.engines.length := (List.getElem?_eq_some_iff.mp he).1
  change u.engineTurn k = _
  rw [engineTurn_of_busy he (busy_eq_true_iff.mp hb) hi, exec_eq_advance,
    advance_of_next (s := { u with turn := k }) he hi hp]
  change Outcome.next (State.checkBetweenSteps _ k) = _
  rw [checkBetweenSteps_eq (e := p.engine) (by simp [hlen])]
  simp [Effect.applyTo, State.setEngine, State.recordFaults]

end HasEffect

/-- What performing an item can do: reset the block, or do to the engine it addresses what it does in every state
that has this engine. -/
theorem perform_next {s t : State} {ev : Event} (h : s.perform ev = .next t) :
    (ev = .reset ∧ t = s.hostReset) ∨
    ∃ (k : Nat) (e : Engine) (x : Effect k), (∀ j, ev.concerns j = (k == j)) ∧ s.engines[k]? = some e ∧
      ev.HasEffect s.config e x := by
  cases ev with
  | issue k w d =>
    cases he : s.engines[k]? with
    | none => simp [State.perform, State.issue, he] at h
    | some e =>
      obtain ⟨x, hx⟩ := issue_hasEffect s.config k e w d
      exact .inr ⟨k, e, x, fun _ => rfl, he, hx⟩
  | readReg k r =>
    cases he : s.engines[k]? with
    | none => simp [State.perform, State.hostReadReg, he] at h
    | some e =>
      obtain ⟨x, hx⟩ := readReg_hasEffect s.config k e r
      exact .inr ⟨k, e, x, fun _ => rfl, he, hx⟩
  | readOut k j =>
    cases he : s.engines[k]? with
    | none => simp [State.perform, State.hostReadOut, he] at h
    | some e =>
      obtain ⟨x, hx⟩ := readOut_hasEffect s.config k e j
      exact .inr ⟨k, e, x, fun _ => rfl, he, hx⟩
  | reset =>
    cases h
    exact .inl ⟨rfl, rfl⟩
  | run k =>
    obtain ⟨e, he, hb, -⟩ | ⟨e, i, u, he, hb, hi, hx, -⟩ := engineTurn_next h
    · obtain ⟨x, hx⟩ := run_hasEffect_of_idle s.config k e hb
      exact .inr ⟨k, e, x, fun _ => rfl, he, hx⟩
    · rw [exec_eq_advance] at hx
      obtain ⟨e', p, he', -, hp, -⟩ := advance_next hx
      obtain rfl := Option.some.inj (he.symm.trans he')
      obtain ⟨x, hx⟩ := run_hasEffect_of_busy s.config k e hb hi hp
      exact .inr ⟨k, e, x, fun _ => rfl, he, hx⟩

/-! ### What concerns one engine -/

/-- What of a state concerns one engine: the parameters, the engine, and its replies and marks. -/
structure EngineView where
  config : Config
  engine : Option Engine
  replies : List Reply
  refusals : List RefusalMark
  faults : List FaultMark

/-- What of the state concerns engine `k`. -/
def State.view (k : Nat) (s : State) : EngineView :=
  { config := s.config, engine := s.engines[k]?, replies := s.replies.filter (Reply.concerns k),
    refusals := s.refusals.filter (fun m => m.engine == k), faults := s.faults.filter (fun m => m.engine == k) }

/-- The view of engine `k` after an effect on it. -/
def Effect.applyToView {k : Nat} (x : Effect k) (v : EngineView) : EngineView :=
  { v with
    engine := v.engine.map fun _ => x.engine
    replies := v.replies ++ x.replies
    refusals := v.refusals ++ x.refusals.map fun r => ⟨k, r⟩
    faults := v.faults ++ x.faults.map fun r => ⟨k, r⟩ }

/-- An effect on an engine is one on its view. -/
theorem view_applyTo_self {k : Nat} (x : Effect k) (s : State) (turn : Nat) :
    (x.applyTo s turn).view k = x.applyToView (s.view k) := by
  have hreplies : x.replies.filter (Reply.concerns k) = x.replies :=
    List.filter_eq_self.mpr fun r hr => by simp [x.replies_own r hr k]
  have hengine : (s.engines.set k x.engine)[k]? = s.engines[k]?.map fun _ => x.engine :=
    List.getElem?_set_self'
  simp [State.view, Effect.applyTo, Effect.applyToView, hreplies, hengine, List.filter_map, Function.comp_def]

/-- An effect on an engine is none on the view of another. -/
theorem view_applyTo_of_ne {j k : Nat} (hjk : j ≠ k) (x : Effect j) (s : State) (turn : Nat) :
    (x.applyTo s turn).view k = s.view k := by
  have hreplies : x.replies.filter (Reply.concerns k) = [] :=
    List.filter_eq_nil_iff.mpr fun r hr => by simp [x.replies_own r hr k, hjk]
  simp [State.view, Effect.applyTo, hreplies, List.getElem?_set_ne hjk, List.filter_map, Function.comp_def, hjk]

/-- Reset does to an engine the same in every state (R230). -/
theorem view_hostReset (k : Nat) (s : State) :
    s.hostReset.view k = { s.view k with engine := (s.view k).engine.map fun _ => Engine.reset } := by
  simp only [State.view, State.hostReset, List.getElem?_map]

/-! ### One item, and a run -/

section Perform

variable {s t u : State} {ev : Event} {k : Nat}

/-- An item does not touch the items after it. -/
theorem perform_agenda (h : s.perform ev = .next t) : t.agenda = s.agenda := by
  obtain ⟨-, rfl⟩ | ⟨_, _, x, -, he, hx⟩ := perform_next h
  · rfl
  · obtain ⟨turn, hturn⟩ := hx s rfl he
    cases h.symm.trans hturn
    rfl

/-- An item that does not concern an engine leaves what does concern it alone (R211). -/
theorem perform_view_of_not_concerns (h : s.perform ev = .next t) (hk : ev.concerns k = false) :
    t.view k = s.view k := by
  obtain ⟨rfl, -⟩ | ⟨j, _, x, hj, he, hx⟩ := perform_next h
  · cases hk
  · obtain ⟨turn, hturn⟩ := hx s rfl he
    cases h.symm.trans hturn
    exact view_applyTo_of_ne (by simpa [hj] using hk) x s turn

/-- An item that concerns an engine does the same in all states that agree on what concerns it. -/
theorem perform_view_of_concerns (h : s.perform ev = .next t) (hk : ev.concerns k = true)
    (hview : u.view k = s.view k) : ∃ v, u.perform ev = .next v ∧ v.view k = t.view k := by
  obtain ⟨rfl, rfl⟩ | ⟨j, e, x, hj, he, hx⟩ := perform_next h
  · exact ⟨u.hostReset, rfl, by rw [view_hostReset, view_hostReset, hview]⟩
  · obtain rfl : j = k := by simpa [hj] using hk
    obtain ⟨turn, hturn⟩ := hx s rfl he
    obtain ⟨turn', hturn'⟩ := hx u (congrArg EngineView.config hview) ((congrArg EngineView.engine hview).trans he)
    cases h.symm.trans hturn
    exact ⟨_, hturn', by rw [view_applyTo_self, view_applyTo_self, hview]⟩

end Perform

/-- A run of one step more is a step and a run, for any machine. -/
theorem run_succ_eq_next (M : Host.Core) {n : Nat} {s t : M.State} :
    M.run (n + 1) s = .next t ↔ ∃ s', M.step s = .next s' ∧ M.run n s' = .next t := by
  rw [Host.Core.run]
  cases M.step s with
  | next s' => simp
  | fault r => simp
  | refused r => simp

/-- A run over an agenda performs its items in turn. -/
theorem run_agenda_cons {ev : Event} {rest : List Event} {s t : State} :
    core.run (ev :: rest).length { s with agenda := ev :: rest } = .next t ↔
      ∃ s', State.perform { s with agenda := rest } ev = .next s' ∧
        core.run rest.length { s' with agenda := rest } = .next t := by
  refine (run_succ_eq_next core).trans (exists_congr fun s' => ?_)
  change step { s with agenda := ev :: rest } = .next s' ∧ _ ↔ _
  rw [step_of_agenda rfl]
  refine and_congr_right fun hs' => ?_
  have hrest : s'.agenda = rest := perform_agenda hs'
  subst hrest
  rfl

/-- The items that concern an engine do to it, in a state that agrees on it, what the whole agenda does. -/
theorem run_filter_concerns {k : Nat} (evs : List Event) {s t u : State} (hview : u.view k = s.view k)
    (h : core.run evs.length { s with agenda := evs } = .next t) :
    ∃ v, core.run (evs.filter (Event.concerns k)).length { u with agenda := evs.filter (Event.concerns k) } =
        .next v ∧ v.view k = t.view k := by
  induction evs generalizing s u with
  | nil =>
    cases h
    exact ⟨_, rfl, hview⟩
  | cons ev rest ih =>
    obtain ⟨s', hs', hrun⟩ := run_agenda_cons.mp h
    cases hk : ev.concerns k with
    | false =>
      rw [List.filter_cons_of_neg (by simp [hk])]
      exact ih (hview.trans (perform_view_of_not_concerns hs' hk).symm) hrun
    | true =>
      obtain ⟨u', hu', hview'⟩ :=
        perform_view_of_concerns (u := { u with agenda := rest.filter (Event.concerns k) }) hs' hk hview
      obtain ⟨v, hv, hviewv⟩ := ih hview' hrun
      rw [List.filter_cons_of_pos hk]
      exact ⟨v, run_agenda_cons.mpr ⟨u', hu', hv⟩, hviewv⟩

/-- Settles O59, by induction on the agenda: an item that does not concern the engine leaves its view, which holds all
that the statement compares, and one that does depends on nothing else. -/
theorem interleavingDoesNotMatter : Obligations.InterleavingDoesNotMatter := by
  intro s t k evs h
  obtain ⟨u, hrun, hview⟩ := run_filter_concerns (u := s) evs rfl h
  exact ⟨u, hrun, congrArg EngineView.engine hview, congrArg EngineView.replies hview,
    congrArg EngineView.refusals hview, congrArg EngineView.faults hview⟩

end Sys2Proof.Machine

/-!
PROOFS. What the host reads of an engine (20_memory.md section 1, section 3).
-/

namespace Sys2Proof.Machine

/-- Settles O31: `readOut` answers a unit exactly for `DONE = 1` and `j < OUT_LEN`. -/
theorem hostReadsOutBelowOutLen : Obligations.HostReadsOutBelowOutLen := by
  intro s k j rest e hag he
  rw [step_of_agenda hag]
  refine ⟨fun hno => ?_, fun b hdone hj hb => ?_⟩
  · have hread : e.readOut j = none := by
      refine if_neg fun ⟨hdone, hj⟩ => ?_
      obtain hnot | hle := hno
      · exact absurd (hdone.symm.trans hnot) (by decide)
      · omega
    simp only [State.perform, State.hostReadOut, he, hread]
    rfl
  · have hread : e.readOut j = some b := (if_pos ⟨hdone, hj⟩).trans hb
    simp only [State.perform, State.hostReadOut, he, hread]
    rfl

/-- Settles O56: while an engine is busy its result registers are 0 and `DONE = 0`, which closes `OUT`. -/
theorem busyEngineShowsNothing : Obligations.BusyEngineShowsNothing := by
  intro s k e ⟨_, _, hinv⟩ he hs
  have hinv := hinv e (List.mem_of_getElem? he)
  have hb : e.busy = true := busy_eq_true_iff.mpr hs
  obtain ⟨herr, hrval⟩ := hinv.no_result_of_busy hb
  obtain ⟨-, -, -, -, -, hnoerr, -, -, -, -, hbusy, -⟩ := hinv
  obtain ⟨hindex, hchar⟩ := hnoerr herr
  obtain ⟨hdone, -, hlen, -⟩ := hbusy hb
  refine ⟨fun r h1 h4 => ?_, fun j => if_neg (by simp [hdone])⟩
  obtain rfl | rfl | rfl | rfl : r = 1 ∨ r = 2 ∨ r = 3 ∨ r = 4 := by omega
  · simp [Engine.readReg, hindex]
  · simp [Engine.readReg, hchar]
  · simp [Engine.readReg, hrval]
  · simp [Engine.readReg, hlen]

end Sys2Proof.Machine

/-!
PROOFS. What each family of instructions leaves alone of its engine (20_memory.md R52, 10_state.md section 4).
-/

namespace Sys2Proof.Machine

/-- The command has ended in the error: `DONE` and `ERR` set, `IDLE`, and `OUT` empty (R203). -/
def Engine.Failed (e : Engine) : Prop := e.done = true ∧ e.err = true ∧ e.state = .idle ∧ e.out = []

theorem raiseInvalidCharacter_failed (e : Engine) (j : Nat) (c : Byte) : (e.raiseInvalidCharacter j c).Failed :=
  ⟨rfl, rfl, rfl, rfl⟩

/-- R161 in one line: an `INVALID` code raises the error, any other code is passed. -/
theorem dchkChar_eq (e : Engine) (c : Byte) :
    e.dchkChar c = if classify c = .invalid then e.raiseInvalidCharacter e.i c else { e with i := e.i + 1 } := by
  unfold Engine.dchkChar
  cases classify c <;> rfl

/-- The end of a `DEC` step writes only `I`, `G`, `ACC`, `NB` and `STOP` (R163). -/
@[simp] theorem decAdvance_out (e : Engine) : e.decAdvance.out = e.out := by
  rw [decAdvance_eq]
  split
  · rfl
  · rfl

/-- The case analysis of R163 appends at most one byte. -/
theorem decAccept_out_prefix (e : Engine) (c : Byte) : e.out <+: (e.decAccept c).engine.out := by
  unfold Engine.decAccept
  split
  · exact List.prefix_rfl
  · split
    · exact List.prefix_rfl
    · exact List.prefix_append _ _
    · exact List.prefix_rfl

/-- A reverse read of a code that is not `INVALID` completes (R103). -/
theorem revStep_eq_completeOk (e : Engine) {c : Byte} (hc : classify c ≠ .invalid) :
    ∃ v, e.revStep c = ({ e with rval := v } : Engine).completeOk := by
  unfold Engine.revStep
  split
  · exact ⟨_, rfl⟩
  · exact ⟨_, rfl⟩
  next hinv => exact absurd hinv hc

/-- A reverse read of an `INVALID` code raises the error (R103). -/
theorem revStep_of_invalid (e : Engine) {c : Byte} (hc : classify c = .invalid) :
    e.revStep c = e.raiseInvalidCharacter 0 c := by
  simp [Engine.revStep, hc]

section Moves

variable {e : Engine} {p : Progress}

/-- `OUT` is only appended to, unless the move raises the error, which empties it (R52, R203). -/
theorem Engine.Move.out_prefix {i : Instr} (h : e.Move i p) : p.engine.Failed ∨ e.out <+: p.engine.out := by
  cases h with
  | encByte _ _ _ => exact .inr (List.prefix_append _ _)
  | encEnd _ _ => exact .inr (List.prefix_append _ _)
  | @dchkChar c _ _ _ =>
    simp only [Progress.clean, dchkChar_eq]
    split
    · exact .inl (raiseInvalidCharacter_failed _ _ _)
    · exact .inr List.prefix_rfl
  | dchkEnd _ _ => exact .inr List.prefix_rfl
  | decChar _ _ _ => exact .inr ((decAccept_out_prefix e _).trans (by rw [Engine.decChar, decAdvance_out]))
  | decEnd _ _ => exact .inr List.prefix_rfl
  | fwd _ _ => exact .inr List.prefix_rfl
  | rev c _ =>
    by_cases hc : classify c = .invalid
    · exact .inl (revStep_of_invalid e hc ▸ raiseInvalidCharacter_failed e 0 c)
    · obtain ⟨v, hv⟩ := revStep_eq_completeOk e hc
      exact .inr (by simp [Progress.clean, hv])

/-- The only move that can meet a model fault is that of `DEC` on a character (R208). -/
theorem Engine.Move.faults_eq_nil {i : Instr} (h : e.Move i p) (hi : i ≠ .dec) : p.faults = [] := by
  cases h with
  | encByte _ _ _ | encEnd _ _ | fwd _ _ | rev _ _ => rfl
  | dchkChar _ _ _ | dchkEnd _ _ | decChar _ _ _ | decEnd _ _ => exact absurd rfl hi

theorem Engine.Move.enc_frame (h : e.Move .enc p) :
    p.engine.stop = e.stop ∧ p.engine.rval = e.rval ∧ p.engine.errIndex = e.errIndex ∧
      p.engine.errChar = e.errChar := by
  cases h with
  | encByte _ _ _ => exact ⟨rfl, rfl, rfl, rfl⟩
  | encEnd _ _ => exact ⟨rfl, rfl, rfl, rfl⟩

theorem Engine.WorksTo.result_eq {f : Engine} {st : EngineState} (h : e.WorksTo f st) :
    f.errIndex = e.errIndex ∧ f.errChar = e.errChar ∧ f.rval = e.rval := by
  obtain ⟨_, _, _, _, _, _, rfl⟩ := h
  exact ⟨rfl, rfl, rfl⟩

theorem Engine.Move.dec_frame (h : e.Move .dec p) :
    (p.engine.errIndex = e.errIndex ∧ p.engine.errChar = e.errChar ∧ p.engine.rval = e.rval) ∨
      p.engine.Failed := by
  cases h with
  | dchkChar _ _ _ =>
    simp only [Progress.clean, dchkChar_eq]
    split
    · exact .inr (raiseInvalidCharacter_failed _ _ _)
    · exact .inl ⟨rfl, rfl, rfl⟩
  | dchkEnd _ _ => exact .inl ⟨rfl, rfl, rfl⟩
  | decChar _ _ _ => exact .inl (decAdvance_worksTo (decAccept_worksTo e _)).result_eq
  | decEnd _ _ => exact .inl ⟨rfl, rfl, rfl⟩

/-- `f` has the sequencing registers of `e` (R30 to R33). -/
def Engine.SameCursor (e f : Engine) : Prop :=
  f.i = e.i ∧ f.g = e.g ∧ f.acc = e.acc ∧ f.nb = e.nb ∧ f.stop = e.stop

/-- `f` has the output and the error registers of `e` (R34, R37, R38). -/
def Engine.SameOutput (e f : Engine) : Prop :=
  f.out = e.out ∧ f.errIndex = e.errIndex ∧ f.errChar = e.errChar

theorem Engine.Move.fwd_frame {v : Value} (h : e.Move (.fwd v) p) :
    e.SameCursor p.engine ∧ e.SameOutput p.engine := by
  cases h with
  | fwd _ _ => exact ⟨⟨rfl, rfl, rfl, rfl, rfl⟩, rfl, rfl, rfl⟩

theorem Engine.Move.rev_frame {c : Byte} (h : e.Move (.rev c) p) :
    e.SameCursor p.engine ∧ (classify c ≠ .invalid → e.SameOutput p.engine) := by
  cases h with
  | rev _ _ =>
    change e.SameCursor (e.revStep c) ∧ (_ → e.SameOutput (e.revStep c))
    by_cases hc : classify c = .invalid
    · rw [revStep_of_invalid e hc]
      exact ⟨⟨rfl, rfl, rfl, rfl, rfl⟩, absurd hc⟩
    · obtain ⟨v, hv⟩ := revStep_eq_completeOk e hc
      rw [hv]
      exact ⟨⟨rfl, rfl, rfl, rfl, rfl⟩, fun _ => ⟨rfl, rfl, rfl⟩⟩

end Moves

/-- Settles O23: `exec` makes one move of the engine whose turn it is, and each family's moves have their frame. -/
theorem familyFrames : Obligations.FamilyFrames := by
  intro i s t e f h he hf
  obtain ⟨e', p, he', -, hm, rfl⟩ := exec_next h
  obtain rfl := Option.some.inj (he.symm.trans he')
  have hlen : s.turn < s.engines.length := (List.getElem?_eq_some_iff.mp he).1
  obtain rfl : p.engine = f := Option.some.inj ((List.getElem?_set_self hlen).symm.trans hf)
  refine ⟨?_, fun hi => by simp [hm.faults_eq_nil hi], ?_, ?_, ?_, ?_⟩
  · obtain hfail | hout := hm.out_prefix
    · exact .inl hfail
    · obtain ⟨added, hadded⟩ := hout
      exact .inr fun a ha => by rw [← hadded, List.getElem?_append_left ha]
  · rintro rfl
    exact hm.enc_frame
  · rintro rfl
    exact hm.dec_frame.imp_right fun ⟨hdone, herr, hidle, _⟩ => ⟨hdone, herr, hidle⟩
  · rintro v rfl
    obtain ⟨⟨hi, hg, hacc, hnb, hstop⟩, hout⟩ := hm.fwd_frame
    exact ⟨hi, hg, hacc, hnb, hstop, hout⟩
  · rintro c rfl
    obtain ⟨⟨hi, hg, hacc, hnb, hstop⟩, hout⟩ := hm.rev_frame
    exact ⟨hi, hg, hacc, hnb, hstop, hout⟩

end Sys2Proof.Machine

/-!
PROOFS. Decoding and encoding are inverse, and a row of the opcode map in match and mask form is a set of encodings
(30_encoding.md R70 to R77).
-/

namespace Sys2Proof.Machine

/-! ### The fields of a command word (R70) -/

@[simp] theorem opField_commandWord (op : BitVec 4) (arg : Byte) : opField (commandWord op arg) = op :=
  (BitVec.extractLsb'_append_eq_of_le (by decide)).trans BitVec.extractLsb'_append_eq_left

@[simp] theorem rsvField_commandWord (op : BitVec 4) (arg : Byte) : rsvField (commandWord op arg) = 0 :=
  (BitVec.extractLsb'_append_eq_of_le (by decide)).trans BitVec.extractLsb'_append_eq_right

@[simp] theorem argField_commandWord (op : BitVec 4) (arg : Byte) : argField (commandWord op arg) = arg :=
  BitVec.extractLsb'_append_eq_right

/-- The argument of `FWD` is its operand below three zero bits (R73). -/
theorem fwd_arg_eq (v : Value) : (Instr.fwd v).arg = (0 : BitVec 3) ++ v :=
  BitVec.setWidth_eq_append (by decide)

/-- The checks of R75 pass on the word of every instruction. -/
theorem decode_encode (i : Instr) : decode (encode i) = .ok i := by
  unfold decode encode
  simp only [opField_commandWord, rsvField_commandWord, argField_commandWord]
  cases i with
  | enc => rfl
  | dec => rfl
  | fwd v =>
    have hhigh : (Instr.fwd v).arg.extractLsb' 5 3 = 0 := by
      rw [fwd_arg_eq]
      exact BitVec.extractLsb'_append_eq_left
    have hlow : fwdOperand (Instr.fwd v).arg = v := by
      rw [fwd_arg_eq]
      exact BitVec.extractLsb'_append_eq_right
    simp [Instr.op, hhigh, hlow]
  | rev c => simp [Instr.op, Instr.arg]

theorem encode_of_decode {w : CmdWord} {i : Instr} (h : decode w = .ok i) : encode i = w := by
  obtain ⟨hop, -, harg⟩ := fields_of_decode h
  rw [encode, ← hop, ← harg, commandWord_fields h]

/-- The accepted words are the encodings, one for each instruction. -/
theorem decode_eq_ok_iff {w : CmdWord} {i : Instr} : decode w = .ok i ↔ w = encode i :=
  ⟨fun h => (encode_of_decode h).symm, fun h => h ▸ decode_encode i⟩

theorem encode_injective : Function.Injective encode := fun i j h =>
  Except.ok.inj ((decode_encode i).symm.trans (h ▸ decode_encode j))

/-- Settles O1: an accepted word is the word built from its fields, and its fields pass the checks. -/
theorem encodeAndDecodeAgree : Obligations.EncodeAndDecodeAgree :=
  ⟨decode_encode, fun _ _ => encode_of_decode⟩

/-! ### The opcode map (R77) -/

/-- A word that agrees with `a` on its upper bits is `a` and free lower bits. -/
theorem and_upper_eq_iff {m n : Nat} (w : BitVec (m + n)) (a : BitVec m) :
    w &&& (BitVec.allOnes m ++ 0#n) = a ++ 0#n ↔ ∃ y : BitVec n, w = a ++ y := by
  constructor
  · intro h
    refine ⟨w.extractLsb' 0 n, ?_⟩
    have hw : w.extractLsb' n m ++ w.extractLsb' 0 n = w := BitVec.extractLsb'_append_extractLsb'
    rw [← hw, BitVec.and_append, BitVec.and_allOnes, BitVec.and_zero, BitVec.append_left_inj] at h
    rw [← h, hw]
  · rintro ⟨y, rfl⟩
    rw [BitVec.and_append, BitVec.and_allOnes, BitVec.and_zero]

/-- The word of `FWD v`: eleven fixed bits, then the operand (R77). -/
theorem encode_fwd_eq (v : Value) : encode (.fwd v) = (0x180 : BitVec 11) ++ v := by
  rw [encode, fwd_arg_eq]
  apply BitVec.eq_of_toNat_eq
  simp only [commandWord, Instr.op, toNat_append_eq_add]
  simp

/-- The word of `REV c`: eight fixed bits, then the operand (R77). -/
theorem encode_rev_eq (c : Byte) : encode (.rev c) = (0x40 : BitVec 8) ++ c :=
  congrArg (· ++ c) (show (4 : BitVec 4) ++ (0 : BitVec 4) = (0x40 : BitVec 8) by decide)

theorem exists_decode_fwd_iff (w : CmdWord) : (∃ v, decode w = .ok (.fwd v)) ↔ w &&& 0xFFE0 = 0x3000 := by
  simp only [decode_eq_ok_iff, encode_fwd_eq]
  exact (and_upper_eq_iff (n := 5) w 0x180).symm

theorem exists_decode_rev_iff (w : CmdWord) : (∃ c, decode w = .ok (.rev c)) ↔ w &&& 0xFF00 = 0x4000 := by
  simp only [decode_eq_ok_iff, encode_rev_eq]
  exact (and_upper_eq_iff (n := 8) w 0x40).symm

/-- A row whose mask covers `OP` accepts only words with the `OP` of its match. -/
theorem opField_of_accepts {r : OpcodeRow} {w : CmdWord} (hmask : opField r.mask = 0xF) (h : r.accepts w = true) :
    opField w = opField r.matchBits := by
  have hw : w &&& r.mask = r.matchBits := by simpa [OpcodeRow.accepts] using h
  calc opField w = opField w &&& BitVec.allOnes 4 := BitVec.and_allOnes.symm
    _ = opField w &&& opField r.mask := by rw [hmask]; rfl
    _ = opField (w &&& r.mask) := BitVec.extractLsb'_and.symm
    _ = opField r.matchBits := by rw [hw]

/-- The rows have four different opcodes, so no word matches two of them. -/
theorem opcodeTable_disjoint :
    opcodeTable.Pairwise (fun r q => ∀ w, ¬(r.accepts w = true ∧ q.accepts w = true)) := by
  have hmask : ∀ r ∈ opcodeTable, opField r.mask = 0xF := by decide
  have hops : opcodeTable.Pairwise (fun r q => opField r.matchBits ≠ opField q.matchBits) := by decide
  refine hops.imp_of_mem fun hr hq hne w ⟨hrw, hqw⟩ => hne ?_
  rw [← opField_of_accepts (hmask _ hr) hrw, opField_of_accepts (hmask _ hq) hqw]

/-- Settles O2: a masked word is compared on its fixed upper bits, and the operand is what is left. -/
theorem opcodeMapMatchesAndMasks : Obligations.OpcodeMapMatchesAndMasks := by
  have hfull (w : CmdWord) : w &&& 0xFFFF = w := BitVec.and_allOnes
  refine ⟨fun w => ?_, fun w => ?_, exists_decode_fwd_iff, exists_decode_rev_iff, fun w v h => ?_, fun w c h => ?_,
    opcodeTable_disjoint⟩
  · rw [hfull, decode_eq_ok_iff]
    rfl
  · rw [hfull, decode_eq_ok_iff]
    rfl
  · rw [decode_eq_ok_iff.mp h, encode_fwd_eq]
    exact BitVec.extractLsb'_append_eq_right.symm
  · rw [decode_eq_ok_iff.mp h, encode_rev_eq]
    exact BitVec.extractLsb'_append_eq_right.symm

/-! ### The check in numbers (R75) -/

theorem opField_toNat (w : CmdWord) : (opField w).toNat = w.toNat / 4096 := by
  rw [opField_eq_ofNat, BitVec.toNat_ofNat]
  have := w.isLt
  omega

theorem rsvField_toNat (w : CmdWord) : (rsvField w).toNat = w.toNat / 256 % 16 := by
  simp [rsvField, Nat.shiftRight_eq_div_pow]

theorem argField_toNat (w : CmdWord) : (argField w).toNat = w.toNat % 256 := by
  simp [argField]

theorem argField_high_toNat (w : CmdWord) : ((argField w).extractLsb' 5 3).toNat = w.toNat % 256 / 32 := by
  rw [BitVec.extractLsb'_toNat, argField_toNat, Nat.shiftRight_eq_div_pow]
  omega

theorem fwdOperand_argField (w : CmdWord) : fwdOperand (argField w) = BitVec.ofNat 5 w.toNat := by
  apply BitVec.eq_of_toNat_eq
  rw [fwdOperand, BitVec.extractLsb'_toNat, argField_toNat, BitVec.toNat_ofNat, Nat.shiftRight_zero]
  omega

theorem opField_eq_iff {w : CmdWord} {op : BitVec 4} : opField w = op ↔ w.toNat / 4096 = op.toNat := by
  rw [← opField_toNat, BitVec.toNat_inj]

/-- The first test of R75 in numbers. -/
theorem reserved_opcode_iff (w : CmdWord) :
    (!(opField w == 1 || opField w == 2 || opField w == 3 || opField w == 4)) = true ↔
      w.toNat / 4096 = 0 ∨ 5 ≤ w.toNat / 4096 := by
  simp only [Bool.not_eq_true', Bool.or_eq_false_iff, beq_eq_false_iff_ne, ne_eq, opField_eq_iff, BitVec.reduceToNat]
  omega

/-- The second test of R75 in numbers. -/
theorem reserved_bits_iff (w : CmdWord) : (rsvField w != 0) = true ↔ w.toNat / 256 % 16 ≠ 0 := by
  rw [bne_iff_ne, ← rsvField_toNat, ne_eq, ne_eq, ← BitVec.toNat_inj]
  rfl

/-- The third test of R75 in numbers, for a word with an opcode. -/
theorem arg_nonzero_iff {w : CmdWord} (hop : w.toNat / 4096 ≠ 0) :
    ((opField w == 1 || opField w == 2) && argField w != 0) = true ↔
      w.toNat / 4096 ≤ 2 ∧ w.toNat % 256 ≠ 0 := by
  have harg : argField w = 0 ↔ w.toNat % 256 = 0 := by
    rw [← BitVec.toNat_inj, argField_toNat]
    rfl
  simp only [Bool.and_eq_true, Bool.or_eq_true, beq_iff_eq, bne_iff_ne, ne_eq, harg, opField_eq_iff,
    BitVec.reduceToNat]
  omega

/-- The fourth test of R75 in numbers. -/
theorem fwd_range_iff (w : CmdWord) :
    (opField w == 3 && (argField w).extractLsb' 5 3 != 0) = true ↔
      w.toNat / 4096 = 3 ∧ 32 ≤ w.toNat % 256 := by
  have hhigh : (argField w).extractLsb' 5 3 = 0 ↔ w.toNat % 256 / 32 = 0 := by
    rw [← BitVec.toNat_inj, argField_high_toNat]
    rfl
  simp only [Bool.and_eq_true, beq_iff_eq, bne_iff_ne, ne_eq, hhigh, opField_eq_iff, BitVec.reduceToNat]
  omega

/-- Settles O3: each test of the check in numbers, in the order of R75; what passes them has one of four opcodes. -/
theorem checkNamesTheFirstFailure : Obligations.CheckNamesTheFirstFailure := by
  intro w d
  unfold check decode
  simp only [reserved_opcode_iff, reserved_bits_iff, fwd_range_iff, fwdOperand_argField]
  by_cases hop : w.toNat / 4096 = 0 ∨ 5 ≤ w.toNat / 4096
  · rw [if_pos hop, if_pos hop]
  rw [if_neg hop, if_neg hop]
  by_cases hrsv : w.toNat / 256 % 16 ≠ 0
  · rw [if_pos hrsv, if_pos hrsv]
  rw [if_neg hrsv, if_neg hrsv]
  simp only [arg_nonzero_iff (not_or.mp hop).1]
  by_cases harg : w.toNat / 4096 ≤ 2 ∧ w.toNat % 256 ≠ 0
  · rw [if_pos harg, if_pos harg]
  rw [if_neg harg, if_neg harg]
  by_cases hfwd : w.toNat / 4096 = 3 ∧ 32 ≤ w.toNat % 256
  · rw [if_pos hfwd, if_pos hfwd]
  rw [if_neg hfwd, if_neg hfwd, argField_eq_ofNat]
  simp only [beq_iff_eq, opField_eq_iff]
  have hops : w.toNat / 4096 = 1 ∨ w.toNat / 4096 = 2 ∨ w.toNat / 4096 = 3 ∨ w.toNat / 4096 = 4 := by omega
  obtain h | h | h | h := hops <;> simp [h, Command.dataAllowed, Instr.takesData]

/-! ### How many words are accepted (R76) -/

/-- The instructions as a sum: `ENC` and `DEC` without an operand, `FWD` and `REV` with one. -/
def instrEquiv : Instr ≃ Bool ⊕ Value ⊕ Byte where
  toFun
    | .enc => .inl false
    | .dec => .inl true
    | .fwd v => .inr (.inl v)
    | .rev c => .inr (.inr c)
  invFun
    | .inl false => .enc
    | .inl true => .dec
    | .inr (.inl v) => .fwd v
    | .inr (.inr c) => .rev c
  left_inv i := by cases i <;> rfl
  right_inv
    | .inl false | .inl true | .inr (.inl _) | .inr (.inr _) => rfl

theorem card_bitVec (n : Nat) : Fintype.card (BitVec n) = 2 ^ n := by
  rw [← FinEnum.card_eq_fintypeCard, FinEnum.card_bitVec]

/-- The accepted words are the encodings of the instructions. -/
theorem accepted_eq_image :
    Finset.univ.filter (fun w : CmdWord => (decode w).toOption.isSome = true) =
      Finset.univ.image (encode ∘ instrEquiv.symm) := by
  ext w
  rw [Finset.mem_filter_univ, Finset.mem_image]
  constructor
  · intro h
    cases hw : decode w with
    | error r => simp [hw, Except.toOption] at h
    | ok i => exact ⟨instrEquiv i, Finset.mem_univ _, by simp [encode_of_decode hw]⟩
  · rintro ⟨x, -, rfl⟩
    rw [Function.comp_apply, decode_encode]
    rfl

/-- Settles O4: the accepted words are the encodings of the 2 + 32 + 256 instructions, which differ. -/
theorem acceptedWordsNumber290 : Obligations.AcceptedWordsNumber290 := by
  unfold Obligations.AcceptedWordsNumber290
  rw [accepted_eq_image, Finset.card_image_of_injective _ (encode_injective.comp instrEquiv.symm.injective)]
  simp [card_bitVec]

/-- Settles O5, word by word. -/
theorem sampleWordsDecode : Obligations.SampleWordsDecode := by
  unfold Obligations.SampleWordsDecode
  decide

/-! ### The assembler (R80) -/

/-- Free lower bits are filled in by an OR (R80). -/
theorem or_ofNat_eq_append {m n : Nat} (a : BitVec m) (y : BitVec n) :
    a ++ 0#n ||| BitVec.ofNat (m + n) y.toNat = a ++ y := by
  have hy : BitVec.ofNat (m + n) y.toNat = 0#m ++ y := by
    apply BitVec.eq_of_toNat_eq
    have hlt : y.toNat < 2 ^ (m + n) := y.isLt.trans_le (Nat.pow_le_pow_right two_pos (Nat.le_add_left n m))
    simp [Nat.mod_eq_of_lt hlt]
  rw [hy, BitVec.or_append, BitVec.or_zero, BitVec.zero_or]

theorem assemble_enc (d : List Byte) : assemble (.enc d) = .ok (encode .enc, d) := rfl

theorem assemble_dec (d : List Byte) : assemble (.dec d) = .ok (encode .dec, d) := rfl

theorem assemble_fwd (v : Value) : assemble (.fwd v.toNat) = .ok (encode (.fwd v), []) := by
  rw [assemble, if_pos (Nat.le_of_lt_succ v.isLt), encode_fwd_eq, ← or_ofNat_eq_append]
  rfl

theorem assemble_rev (c : Byte) : assemble (.rev c.toNat) = .ok (encode (.rev c), []) := by
  rw [assemble, if_pos (Nat.le_of_lt_succ c.isLt), encode_rev_eq, ← or_ofNat_eq_append]
  rfl

theorem assemble_word (w : CmdWord) (d : List Byte) : assemble (.word w.toNat d) = .ok (w, d) := by
  rw [assemble, if_pos (Nat.le_of_lt_succ w.isLt), BitVec.ofNat_toNat, BitVec.setWidth_eq]

/-- Settles O6: each form gives its fixed bits with the operand below them, and a number out of range is rejected. -/
theorem assemblerGivesTheEncodedCommand : Obligations.AssemblerGivesTheEncodedCommand :=
  ⟨assemble_enc, assemble_dec, assemble_fwd, assemble_rev, assemble_word, fun _ h => if_neg (Nat.not_le.mpr h),
    fun _ h => if_neg (Nat.not_le.mpr h), fun _ _ h => if_neg (Nat.not_le.mpr h)⟩

end Sys2Proof.Machine

/-!
PROOFS. The assembler reads what the disassembler prints: numerals, brace lists and quoted characters, then the lines
(30_encoding.md R78 to R80).
-/

namespace Sys2Proof.Machine

/-! ### Numerals -/

theorem digitValue_hexDigit {d : Nat} (h : d < 16) : digitValue 16 (hexDigit d) = some d := by
  revert d
  decide

/-- The code of a decimal digit. -/
def decDigit (d : Nat) : Byte := BitVec.ofNat 8 d.digitChar.toNat

theorem digitValue_decDigit {d : Nat} (h : d < 10) : digitValue 10 (decDigit d) = some d := by
  revert d
  decide

theorem readDigits_digit {base d : Nat} {c : Byte} (hc : digitValue base c = some d) (acc count : Nat) (r : Text) :
    readDigits base acc count (c :: r) = readDigits base (acc * base + d) (count + 1) r := by
  rw [readDigits, hc]

/-- The text `ds` is a numeral for `n`: its digits are read to their end, whatever follows. -/
def IsNumeral (base : Nat) (ds : Text) (n : Nat) : Prop :=
  ∀ (acc count : Nat) (r : Text),
    readDigits base acc count (ds ++ r) = readDigits base (acc * base ^ ds.length + n) (count + ds.length) r

theorem isNumeral_nil (base : Nat) : IsNumeral base [] 0 := by
  simp [IsNumeral]

/-- One more digit at the end of a numeral. -/
theorem IsNumeral.snoc {base n d : Nat} {ds : Text} {c : Byte} (h : IsNumeral base ds n)
    (hc : digitValue base c = some d) : IsNumeral base (ds ++ [c]) (n * base + d) := by
  intro acc count r
  have hacc : (acc * base ^ ds.length + n) * base + d = acc * base ^ (ds.length + 1) + (n * base + d) := by ring
  rw [List.append_assoc, h, List.singleton_append, readDigits_digit hc, List.length_append, List.length_singleton, hacc,
    add_assoc count]

theorem hexDigits_length (k n : Nat) : (hexDigits k n).length = k := by
  induction k generalizing n with
  | zero => rfl
  | succ k ih => simp [hexDigits, ih]

theorem hexDigits_isNumeral (k n : Nat) : IsNumeral 16 (hexDigits k n) (n % 16 ^ k) := by
  induction k generalizing n with
  | zero => simpa [hexDigits, Nat.mod_one] using isNumeral_nil 16
  | succ k ih =>
    have hmod : n % 16 ^ (k + 1) = n / 16 % 16 ^ k * 16 + n % 16 := by
      rw [pow_succ', Nat.mod_mul]
      ring
    rw [hmod]
    exact (ih (n / 16)).snoc (digitValue_hexDigit (Nat.mod_lt n (by decide)))

theorem printDec_of_lt {n : Nat} (h : n < 10) : printDec n = [decDigit n] := by
  rw [printDec, Nat.toDigits_of_lt_base h]
  rfl

theorem printDec_of_le {n : Nat} (h : 10 ≤ n) : printDec n = printDec (n / 10) ++ [decDigit (n % 10)] := by
  rw [printDec, Nat.toDigits_of_base_le (by decide) h, List.map_append]
  rfl

theorem printDec_isNumeral (n : Nat) : IsNumeral 10 (printDec n) n := by
  induction n using Nat.strong_induction_on with
  | _ n ih =>
    by_cases hn : n < 10
    · rw [printDec_of_lt hn]
      simpa using (isNumeral_nil 10).snoc (digitValue_decDigit hn)
    · rw [printDec_of_le (Nat.not_lt.mp hn)]
      have hsnoc := (ih (n / 10) (by omega)).snoc (digitValue_decDigit (Nat.mod_lt n (by decide)))
      rwa [Nat.div_add_mod'] at hsnoc

/-- No digit of the base follows. -/
def EndsNumber (base : Nat) (r : Text) : Prop := ∀ c ∈ r.head?, digitValue base c = none

theorem endsNumber_nil {base : Nat} : EndsNumber base [] := by
  simp [EndsNumber]

theorem endsNumber_cons {base : Nat} {c : Byte} (h : digitValue base c = none) (r : Text) :
    EndsNumber base (c :: r) := by
  simpa [EndsNumber] using h

theorem readDigits_of_endsNumber {base : Nat} {r : Text} (hr : EndsNumber base r) (acc count : Nat) :
    readDigits base acc count r = (acc, count, r) := by
  cases r with
  | nil => rfl
  | cons c r => rw [readDigits, hr c rfl]

theorem readNumIn_numeral {base n : Nat} {ds r : Text} (h : IsNumeral base ds n) (hds : ds ≠ [])
    (hr : EndsNumber base r) : readNumIn base (ds ++ r) = some (n, r) := by
  simp [readNumIn, h 0 0 r, readDigits_of_endsNumber hr, hds]

theorem readNum_printHex {k n : Nat} {r : Text} (hk : 0 < k) (hr : EndsNumber 16 r) :
    readNum (printHex k n ++ r) = some (n % 16 ^ k, r) :=
  readNumIn_numeral (hexDigits_isNumeral k n) (List.ne_nil_of_length_pos (hk.trans_eq (hexDigits_length k n).symm)) hr

theorem mem_printDec {n : Nat} {c : Byte} (h : c ∈ printDec n) : 0x30 ≤ c.toNat ∧ c.toNat ≤ 0x39 := by
  obtain ⟨ch, hmem, rfl⟩ := List.mem_map.mp h
  have hdigit : 48 ≤ ch.toNat ∧ ch.toNat ≤ 57 := by
    simpa [Char.isDigit, UInt32.le_iff_toNat_le] using Nat.isDigit_of_mem_toDigits (by decide) (by decide) hmem
  rw [BitVec.toNat_ofNat]
  omega

/-- A decimal numeral has no `x`, so it is not read as hexadecimal. -/
theorem readNum_printDec (n : Nat) : readNum (printDec n) = some (n, []) := by
  have hdec : (printDec n).take 2 ≠ codes "0x" := fun h =>
    have hx : (0x78 : Byte) ∈ (printDec n).take 2 := h ▸ by decide
    absurd (mem_printDec (List.mem_of_mem_take hx)).2 (by decide)
  have hne : printDec n ≠ [] := by simp [printDec]
  rw [readNum, if_neg hdec]
  simpa using readNumIn_numeral (printDec_isNumeral n) hne endsNumber_nil

/-! ### Blanks, units and brace lists -/

@[simp] theorem skipBlanks_space (t : Text) : skipBlanks (0x20 :: t) = skipBlanks t := rfl

theorem skipBlanks_cons {c : Byte} (hc : isBlank c = false) (t : Text) : skipBlanks (c :: t) = c :: t :=
  List.dropWhile_cons_of_neg (by simp [hc])

theorem skipBlanks_printDec (n : Nat) : skipBlanks (printDec n) = printDec n := by
  cases h : printDec n with
  | nil => rfl
  | cons c t =>
    obtain ⟨hlow, -⟩ := mem_printDec (h ▸ List.mem_cons_self : c ∈ printDec n)
    refine skipBlanks_cons ?_ t
    have hspace : c ≠ 0x20 := fun hc => absurd (hc ▸ hlow) (by decide)
    have htab : c ≠ 0x09 := fun hc => absurd (hc ▸ hlow) (by decide)
    exact Bool.or_eq_false_iff.mpr ⟨beq_eq_false_iff_ne.mpr hspace, beq_eq_false_iff_ne.mpr htab⟩

@[simp] theorem skipBlanks_printHex (k n : Nat) (r : Text) : skipBlanks (printHex k n ++ r) = printHex k n ++ r := rfl

/-- A printed unit is read as that unit. -/
theorem readNum_printUnit (u : Byte) {r : Text} (hr : EndsNumber 16 r) :
    readNum (printHex 2 u.toNat ++ r) = some (u.toNat, r) := by
  rw [readNum_printHex two_pos hr, Nat.mod_eq_of_lt (by have := u.isLt; omega)]

section Units

variable {fuel : Nat} {u : Byte} {us : List Byte} {t r r' : Text}

theorem readUnits_last (ht : readNum (skipBlanks t) = some (u.toNat, 0x7D :: r)) :
    readUnits (fuel + 1) t = .ok ([u], r) := by
  have hu : ¬ 255 < u.toNat := Nat.not_lt.mpr (Nat.le_of_lt_succ u.isLt)
  have hbrace : skipBlanks (0x7D :: r) = 0x7D :: r := skipBlanks_cons (by decide) r
  simp only [readUnits, ht, hbrace, if_neg hu, if_true, BitVec.ofNat_toNat, BitVec.setWidth_eq]

theorem readUnits_comma (ht : readNum (skipBlanks t) = some (u.toNat, 0x2C :: r'))
    (hr : readUnits fuel r' = .ok (us, r)) : readUnits (fuel + 1) t = .ok (u :: us, r) := by
  have hu : ¬ 255 < u.toNat := Nat.not_lt.mpr (Nat.le_of_lt_succ u.isLt)
  have hcomma : skipBlanks (0x2C :: r') = 0x2C :: r' := skipBlanks_cons (by decide) r'
  have hne : (0x2C : Byte) ≠ 0x7D := by decide
  simp only [readUnits, ht, hcomma, if_neg hu, if_neg hne, if_true, hr, BitVec.ofNat_toNat, BitVec.setWidth_eq]

end Units

theorem skipBlanks_printUnits (u : Byte) (us : List Byte) (r : Text) :
    skipBlanks (printUnits (u :: us) ++ r) = printUnits (u :: us) ++ r := by
  cases us with
  | nil => rfl
  | cons v us => rfl

/-- A printed list of two or more units begins with a unit, a comma and a blank. -/
theorem printUnits_cons_cons (u v : Byte) (us : List Byte) (r : Text) :
    printUnits (u :: v :: us) ++ r = printHex 2 u.toNat ++ 0x2C :: 0x20 :: (printUnits (v :: us) ++ r) := by
  simp [printUnits, show codes ", " = [0x2C, 0x20] from rfl]

/-- The units of a printed list are read back up to the closing brace, also after blanks. -/
theorem readUnits_printUnits (u : Byte) (us : List Byte) (r : Text) {fuel : Nat} {t : Text} (hfuel : us.length < fuel)
    (ht : skipBlanks t = printUnits (u :: us) ++ 0x7D :: r) : readUnits fuel t = .ok (u :: us, r) := by
  obtain ⟨fuel, rfl⟩ := Nat.exists_eq_add_one.mpr (Nat.zero_lt_of_lt hfuel)
  induction us generalizing u fuel t with
  | nil =>
    refine readUnits_last ?_
    rw [ht]
    exact readNum_printUnit u (endsNumber_cons (by decide) r)
  | cons v us ih =>
    obtain ⟨fuel, rfl⟩ := Nat.exists_eq_add_one.mpr (Nat.zero_lt_of_lt (Nat.lt_of_succ_lt_succ hfuel))
    have hrest := ih v ((skipBlanks_space _).trans (skipBlanks_printUnits v us _)) fuel
      (Nat.lt_of_succ_lt_succ hfuel)
    refine readUnits_comma ?_ hrest
    rw [ht, printUnits_cons_cons]
    exact readNum_printUnit u (endsNumber_cons (by decide) _)

theorem length_le_printUnits_length (d : List Byte) : d.length ≤ (printUnits d).length := by
  induction d with
  | nil => exact Nat.le_refl 0
  | cons u us ih =>
    cases us with
    | nil => exact Nat.le_add_left 1 _
    | cons v us =>
      have hsplit := congrArg List.length (printUnits_cons_cons u v us [])
      simp only [List.append_nil, List.length_append, List.length_cons] at hsplit ih ⊢
      omega

theorem readBraceList_printUnits (d : List Byte) (r : Text) :
    readBraceList (printUnits d ++ 0x7D :: r) = .ok (d, r) := by
  cases d with
  | nil => rfl
  | cons u us =>
    have hfuel : us.length < (printUnits (u :: us) ++ 0x7D :: r).length := by
      have := length_le_printUnits_length (u :: us)
      simp only [List.length_cons, List.length_append] at this ⊢
      omega
    have hread := readUnits_printUnits u us r hfuel (skipBlanks_printUnits u us _)
    unfold readBraceList
    rw [skipBlanks_printUnits]
    cases us with
    | nil => exact hread
    | cons v us => exact hread

theorem readData_printData (d : List Byte) : readData (0x20 :: printData d) = .ok (d, []) :=
  readBraceList_printUnits d []

/-! ### The operand of `REV` -/

theorem readCharOrNum_of_ne_quote {q : Byte} (hq : q ≠ 0x27) (t : Text) :
    readCharOrNum (q :: t) = readNum (q :: t) := by
  unfold readCharOrNum
  split
  next h =>
    obtain ⟨rfl, -⟩ := List.cons.inj h
    rw [if_neg hq]
  · rfl

/-- The operand of `REV` is read back, quoted or as a number (R80). -/
theorem readCharOrNum_printChar (c : Byte) : readCharOrNum (skipBlanks (printChar c.toNat)) = some (c.toNat, []) := by
  unfold printChar
  split
  next h =>
    obtain ⟨-, hhigh, hquote, hslash⟩ := h
    have hascii : isAscii c = true := decide_eq_true (by omega)
    have hquote : c ≠ 0x27 := fun hc => hquote (hc ▸ rfl)
    have hslash : c ≠ 0x5C := fun hc => hslash (hc ▸ rfl)
    rw [BitVec.ofNat_toNat, BitVec.setWidth_eq, skipBlanks_cons (by decide)]
    exact if_pos ⟨rfl, hascii, hquote, hslash⟩
  next =>
    calc readCharOrNum (skipBlanks (printHex 2 c.toNat)) = readNum (printHex 2 c.toNat) :=
          readCharOrNum_of_ne_quote (by decide) _
      _ = some (c.toNat, []) := by simpa using readNum_printUnit c endsNumber_nil

/-! ### Lines: a line is read as its mnemonic and what follows it -/

theorem parseLine_enc (t : Text) : parseLine (codes "ENC " ++ t) = lastOperand .enc (readData (0x20 :: t)) := rfl

theorem parseLine_dec (t : Text) : parseLine (codes "DEC " ++ t) = lastOperand .dec (readData (0x20 :: t)) := rfl

theorem parseLine_fwd (t : Text) :
    parseLine (codes "FWD " ++ t) = lastOperand .fwd (orMalformed (readNum (skipBlanks t))) := rfl

theorem parseLine_rev (t : Text) :
    parseLine (codes "REV " ++ t) = lastOperand .rev (orMalformed (readCharOrNum (skipBlanks t))) := rfl

theorem parseLine_word (t : Text) : parseLine (codes ".word " ++ t) = parseWord t := rfl

theorem parseLine_printLine_enc (d : List Byte) : parseLine (printLine (.enc d)) = .ok (.enc d) := by
  rw [printLine, parseLine_enc, readData_printData]
  rfl

theorem parseLine_printLine_dec (d : List Byte) : parseLine (printLine (.dec d)) = .ok (.dec d) := by
  rw [printLine, parseLine_dec, readData_printData]
  rfl

theorem parseLine_printLine_fwd (n : Nat) : parseLine (printLine (.fwd n)) = .ok (.fwd n) := by
  rw [printLine, parseLine_fwd, skipBlanks_printDec, readNum_printDec]
  rfl

theorem parseLine_printLine_rev (c : Byte) : parseLine (printLine (.rev c.toNat)) = .ok (.rev c.toNat) := by
  rw [printLine, parseLine_rev, readCharOrNum_printChar]
  rfl

theorem readNum_printWord (w : CmdWord) {r : Text} (hr : EndsNumber 16 r) :
    readNum (printHex 4 w.toNat ++ r) = some (w.toNat, r) := by
  rw [readNum_printHex four_pos hr, Nat.mod_eq_of_lt (by have := w.isLt; omega)]

theorem parseLine_printLine_word (w : CmdWord) (d : List Byte) :
    parseLine (printLine (.word w.toNat d)) = .ok (.word w.toNat d) := by
  cases d with
  | nil =>
    have hnum := readNum_printWord w endsNumber_nil
    rw [printLine, ← List.append_nil (printHex 4 w.toNat), parseLine_word, parseWord, skipBlanks_printHex, hnum]
    rfl
  | cons u us =>
    have hnum := readNum_printWord w (endsNumber_cons (c := 0x20) (by decide) (printData (u :: us)))
    have hline : printLine (.word w.toNat (u :: us)) =
        codes ".word " ++ (printHex 4 w.toNat ++ 0x20 :: printData (u :: us)) := by
      simp [printLine, show codes " " = [0x20] from rfl]
    rw [hline, parseLine_word, parseWord, skipBlanks_printHex, hnum]
    change lastOperand _ (readData (0x20 :: printData (u :: us))) = _
    rw [readData_printData]
    rfl

theorem assembleLine_of_parseLine {t : Text} {l : SourceLine} (h : parseLine t = .ok l) :
    assembleLine t = assemble l := by
  rw [assembleLine, h]

/-- Settles O7: each form of line is read back as printed, and assembles to the command it was printed for. -/
theorem printedCommandAssemblesBack : Obligations.PrintedCommandAssemblesBack := by
  intro w d
  unfold disassemble
  cases hcheck : check w d with
  | error r => exact (assembleLine_of_parseLine (parseLine_printLine_word w d)).trans (assemble_word w d)
  | ok c =>
    obtain ⟨i, d'⟩ := c
    obtain ⟨hdec, rfl, hdata⟩ := check_eq_ok.mp hcheck
    obtain rfl := decode_eq_ok_iff.mp hdec
    cases i with
    | enc => exact (assembleLine_of_parseLine (parseLine_printLine_enc d')).trans (assemble_enc d')
    | dec => exact (assembleLine_of_parseLine (parseLine_printLine_dec d')).trans (assemble_dec d')
    | fwd v =>
      obtain rfl : d' = [] := List.isEmpty_iff.mp hdata
      exact (assembleLine_of_parseLine (parseLine_printLine_fwd v.toNat)).trans (assemble_fwd v)
    | rev c =>
      obtain rfl : d' = [] := List.isEmpty_iff.mp hdata
      exact (assembleLine_of_parseLine (parseLine_printLine_rev c)).trans (assemble_rev c)

end Sys2Proof.Machine

/-!
PROOFS. The table reads: the fold and the reverse read in numbers, and `FWD` and `REV` from issue to completion
(40_tables.md R100 to R107).
-/

namespace Sys2Proof.Machine

/-! ### The fold and the reverse read (R101 to R105) -/

/-- A lowercase letter is folded. -/
theorem fold_of_lowercase {c : Byte} (h : 0x61 ≤ c.toNat ∧ c.toNat ≤ 0x7A) : fold c = c - 0x20 := if_pos h

/-- Folding leaves every other code alone. -/
theorem fold_eq_self {c : Byte} (h : ¬(0x61 ≤ c.toNat ∧ c.toNat ≤ 0x7A)) : fold c = c := if_neg h

/-- Settles O10: a lowercase code is at least 0x20, so the subtraction does not wrap. -/
theorem foldChangesOnlyLowercaseLetters : Obligations.FoldChangesOnlyLowercaseLetters := by
  intro c
  by_cases h : 0x61 ≤ c.toNat ∧ c.toNat ≤ 0x7A
  · rw [if_pos h, fold_of_lowercase h]
    exact BitVec.toNat_sub_of_le (BitVec.le_def.mpr (le_trans (by decide) h.1))
  · rw [if_neg h, fold_eq_self h]

/-- Folding gives no lowercase letter. -/
theorem fold_not_lowercase (c : Byte) : ¬(0x61 ≤ (fold c).toNat ∧ (fold c).toNat ≤ 0x7A) := by
  rw [foldChangesOnlyLowercaseLetters c]
  split <;> omega

theorem fold_fold (c : Byte) : fold (fold c) = fold c := fold_eq_self (fold_not_lowercase c)

theorem fwdRom_not_lowercase (v : Value) : ¬(0x61 ≤ (fwdRom v).toNat ∧ (fwdRom v).toNat ≤ 0x7A) := by
  have := v.isLt
  rw [forwardTableContents v]
  split <;> omega

theorem fwdRom_ne_padCode (v : Value) : fwdRom v ≠ padCode := by
  intro h
  have hv := forwardTableContents v
  rw [h] at hv
  change 0x3D = _ at hv
  split at hv <;> omega

/-- R102: the code of a symbol, in either case, is of the class `VALUE`. -/
theorem classify_eq_value_iff {c : Byte} {v : Value} : classify c = .value v ↔ fwdRom v = fold c := by
  rw [← reverseTable_eq_some_iff, classify]
  cases reverseTable (fold c) with
  | some u => simp
  | none => simp [apply_ite (· = CharClass.value v)]

/-- R102: `=` is the one code of the class `PAD`. -/
theorem classify_eq_pad_iff {c : Byte} : classify c = .pad ↔ fold c = padCode := by
  rw [classify]
  cases h : reverseTable (fold c) with
  | some v =>
    have hv := reverseTable_eq_some_iff.mp h
    simp [← hv, fwdRom_ne_padCode]
  | none => simp

/-- Settles O12: a class depends on the folded code alone, and the table holds neither `PAD` nor a lowercase code. -/
theorem tableReadsUndoEachOther : Obligations.TableReadsUndoEachOther :=
  ⟨fun v => classify_eq_value_iff.mpr (fold_eq_self (fwdRom_not_lowercase v)).symm,
    fun c => by rw [classify, classify, fold_fold],
    fun _ _ => classify_eq_value_iff.mp,
    fun v => ⟨fwdRom_ne_padCode v, fwdRom_not_lowercase v⟩⟩

/-- The class `VALUE` in numbers: a letter of either case, or a digit (R102). -/
theorem classify_eq_value_iff_toNat {c : Byte} {v : Value} :
    classify c = .value v ↔
      (v.toNat ≤ 25 ∧ (c.toNat = 0x41 + v.toNat ∨ c.toNat = 0x61 + v.toNat)) ∨
        (26 ≤ v.toNat ∧ c.toNat = 0x32 + (v.toNat - 26)) := by
  have := v.isLt
  rw [classify_eq_value_iff, ← BitVec.toNat_inj, forwardTableContents v, foldChangesOnlyLowercaseLetters c]
  split <;> split <;> omega

/-- The class `PAD` in numbers (R102). -/
theorem classify_eq_pad_iff_toNat {c : Byte} : classify c = .pad ↔ c.toNat = 0x3D := by
  rw [classify_eq_pad_iff, ← BitVec.toNat_inj, foldChangesOnlyLowercaseLetters c]
  change _ = 0x3D ↔ _
  split <;> omega

/-- The table of R102, range by range. -/
theorem classify_eq_ite (c : Byte) : classify c =
    if 0x32 ≤ c.toNat ∧ c.toNat ≤ 0x37 then .value (BitVec.ofNat 5 (c.toNat - 0x32 + 26))
    else if c.toNat = 0x3D then .pad
    else if 0x41 ≤ c.toNat ∧ c.toNat ≤ 0x5A then .value (BitVec.ofNat 5 (c.toNat - 0x41))
    else if 0x61 ≤ c.toNat ∧ c.toNat ≤ 0x7A then .value (BitVec.ofNat 5 (c.toNat - 0x61))
    else .invalid := by
  split_ifs with hdigit hpad hupper hlower
  · rw [classify_eq_value_iff_toNat, BitVec.toNat_ofNat]
    omega
  · exact classify_eq_pad_iff_toNat.mpr hpad
  · rw [classify_eq_value_iff_toNat, BitVec.toNat_ofNat]
    omega
  · rw [classify_eq_value_iff_toNat, BitVec.toNat_ofNat]
    omega
  · cases hc : classify c with
    | value v =>
      have hv := classify_eq_value_iff_toNat.mp hc
      have := v.isLt
      omega
    | pad => exact absurd (classify_eq_pad_iff_toNat.mp hc) hpad
    | invalid => rfl

/-- The codes of the symbols, in either case (R102). -/
def symbolCodes : Finset Nat := Finset.Icc 0x32 0x37 ∪ Finset.Icc 0x41 0x5A ∪ Finset.Icc 0x61 0x7A

/-- The codes that are neither `INVALID` nor `PAD` are those of the symbols. -/
theorem value_iff_mem_symbolCodes {c : Byte} :
    (classify c ≠ .invalid ∧ classify c ≠ .pad) ↔ c.toNat ∈ symbolCodes := by
  rw [classify_eq_ite]
  simp only [symbolCodes, Finset.mem_union, Finset.mem_Icc]
  split_ifs <;> simp <;> omega

/-- A property of codes that holds exactly for the numbers in `S` holds for as many codes. -/
theorem card_filter_toNat {P : Byte → Prop} [DecidablePred P] {S : Finset Nat} (hS : ∀ n ∈ S, n < 2 ^ 8)
    (h : ∀ c : Byte, P c ↔ c.toNat ∈ S) : (Finset.univ.filter P).card = S.card := by
  refine Finset.card_bij (fun c _ => c.toNat) (fun c hc => (h c).mp (Finset.mem_filter.mp hc).2)
    (fun _ _ _ _ => BitVec.eq_of_toNat_eq) fun n hn => ?_
  have hval : (BitVec.ofNat 8 n).toNat = n := Nat.mod_eq_of_lt (hS n hn)
  exact ⟨BitVec.ofNat 8 n, Finset.mem_filter.mpr ⟨Finset.mem_univ _, (h _).mpr (hval.symm ▸ hn)⟩, hval⟩

/-- Settles O11: the classes are those of their ranges, and the counts are those of the numbers in the ranges. -/
theorem reverseReadClassifiesEveryCode : Obligations.ReverseReadClassifiesEveryCode := by
  have hpad : (Finset.univ.filter (fun c : BitVec 8 => classify c = .pad)).card = 1 :=
    card_filter_toNat (S := {0x3D}) (by decide) fun c => by simp [classify_eq_pad_iff_toNat]
  have hvalue : (Finset.univ.filter (fun c : BitVec 8 => classify c ≠ .invalid ∧ classify c ≠ .pad)).card = 58 :=
    card_filter_toNat (S := symbolCodes) (by decide) fun c => value_iff_mem_symbolCodes
  have hnot : (Finset.univ.filter (fun c : BitVec 8 => ¬classify c = .invalid)).card = 59 :=
    card_filter_toNat (S := insert 0x3D symbolCodes) (by decide) fun c => by
      rw [Finset.mem_insert, ← classify_eq_pad_iff_toNat, ← value_iff_mem_symbolCodes]
      cases classify c <;> simp
  have hall := Finset.card_filter_add_card_filter_not (s := Finset.univ) (fun c : BitVec 8 => classify c = .invalid)
  rw [hnot, Finset.card_univ, card_bitVec] at hall
  exact ⟨classify_eq_ite, Nat.add_right_cancel hall, hpad, hvalue⟩

/-! ### The engine step of a command that was captured or issued -/

/-- The captured fields `OP` and `ARG` of an instruction decode to it (R28). -/
theorem State.TurnOf.decode_word {s : State} {e : Engine} {i : Instr} (h : s.TurnOf e i.op i.arg) :
    decode e.word = .ok i := by
  obtain ⟨-, hopc, harg⟩ := h
  rw [Engine.word, hopc, harg]
  exact decode_encode i

/-- A step that meets no model fault writes the engine whose turn it is, and nothing else. -/
theorem exec_of_clean {s : State} {e f : Engine} {i : Instr} (h : s.TurnOf e i.op i.arg)
    (hf : engineStep i e = .next (Progress.clean f)) :
    exec i s = .next { s with engines := s.engines.set s.turn f } := by
  rw [exec_eq_advance, advance_of_next h.1 h.decode_word hf]
  simp [Progress.clean, State.setEngine, State.recordFaults]

/-- The turn of a busy engine, as an item of the agenda, when its step meets no model fault and the check after it
finds none (R239, R208). -/
theorem step_run_of_clean {s : State} {k : Nat} {rest : List Event} {e f : Engine} {i : Instr}
    (hag : s.agenda = .run k :: rest) (he : s.engines[k]? = some e) (hs : e.state ≠ .idle)
    (hi : decode e.word = .ok i) (hf : engineStep i e = .next (Progress.clean f)) (hok : f.betweenStepsOk = true) :
    step s = .next { s with agenda := rest, turn := k, engines := s.engines.set k f } := by
  have hlen : k < s.engines.length := (List.getElem?_eq_some_iff.mp he).1
  rw [step_of_agenda hag, State.perform, engineTurn_of_busy (s := { s with agenda := rest }) he hs hi, exec_eq_advance,
    advance_of_next (s := { s with agenda := rest, turn := k }) he hi hf, afterTurn,
    checkBetweenSteps_eq (e := f) (by simp [Progress.clean, hlen])]
  simp [Progress.clean, State.setEngine, State.recordFaults, Engine.betweenStepsFaults, hok]

/-- An idle engine captures the word of an instruction whose data it may carry and has room for (R46). -/
theorem step_issue_encode {s : State} {k : Nat} {d : List Byte} {rest : List Event} {e : Engine} {i : Instr}
    (hag : s.agenda = .issue k (encode i) d :: rest) (he : s.engines[k]? = some e) (hs : e.state = .idle)
    (hd : Command.wellFormed s.config ⟨i, d⟩ = true) :
    step s = .next { s with agenda := rest, engines := s.engines.set k (e.capture (encode i) ⟨i, d⟩) } := by
  obtain ⟨hdata, hfits⟩ := Bool.and_eq_true_iff.mp hd
  exact step_issue_of_ok hag he (acceptCommand_eq_ok.mpr
    ⟨busy_eq_false_iff.mpr hs, check_eq_ok.mpr ⟨decode_encode i, rfl, hdata⟩, hfits⟩)

/-- The one step of a table read is enabled in `TBL` (R107). -/
theorem tableStep_of_tbl {e : Engine} (hs : e.state = .tbl) (f : Engine → Engine) :
    tableStep f e = .next (Progress.clean (f e)) := by
  rw [tableStep, hs]

/-- Settles O13: the captured word is `FWD v`, whose step completes with the entry of the table (R22). -/
theorem fwdCompletesWithTheSymbol : Obligations.FwdCompletesWithTheSymbol := by
  intro s e v hturn hs
  rw [exec_of_clean (i := .fwd v) hturn (tableStep_of_tbl hs _), ← forwardTableContents v, BitVec.ofNat_toNat,
    BitVec.setWidth_eq]
  rfl

/-- Settles O14: the captured word is `REV c`, whose step has one outcome for each class (R103). -/
theorem revCompletesByClass : Obligations.RevCompletesByClass := by
  intro s e c hturn hs
  rw [exec_of_clean (i := .rev c) hturn (tableStep_of_tbl hs _), Engine.revStep]
  cases classify c with
  | value v =>
    simp only [BitVec.ofNat_toNat]
    rfl
  | pad => rfl
  | invalid => rfl

/-! ### `FWD` and `REV` from issue to completion (R100, R103, R107) -/

@[simp] theorem opField_encode (i : Instr) : opField (encode i) = i.op := opField_commandWord _ _

theorem fwd_word_eq (v : Value) : 0x3000 ||| v.setWidth 16 = encode (.fwd v) := by
  rw [encode_fwd_eq, ← or_ofNat_eq_append, BitVec.ofNat_toNat]
  rfl

theorem rev_word_eq (c : Byte) : 0x4000 ||| c.setWidth 16 = encode (.rev c) := by
  rw [encode_rev_eq, ← or_ofNat_eq_append, BitVec.ofNat_toNat]
  rfl

/-- `STATUS` after `complete_ok()`: `DONE` and the operation (R36, R45). -/
theorem completeOk_status (e : Engine) : e.completeOk.status = (0 : BitVec 4) ++ e.lastop ++ (0x02 : Byte) := by
  apply BitVec.eq_of_toNat_eq
  rw [statusWordLayout, toNat_append_eq_add, toNat_append_eq_add]
  simp [Nat.add_comm, Nat.mul_comm]

/-- `STATUS` after the error: `DONE`, `ERR`, the error code 1 and the operation (R36, R45). -/
theorem raiseInvalidCharacter_status (e : Engine) (j : Nat) (c : Byte) :
    (e.raiseInvalidCharacter j c).status = (0 : BitVec 4) ++ e.lastop ++ (0x16 : Byte) := by
  apply BitVec.eq_of_toNat_eq
  rw [statusWordLayout, toNat_append_eq_add, toNat_append_eq_add]
  simp [Nat.add_comm, Nat.mul_comm]

/-- A table read that is issued to an idle engine makes it busy, and its one step, which leaves it idle, is the turn
that follows (R107). -/
theorem run_table_command {s : State} {k : Nat} {e : Engine} {rest : List Event} {i : Instr} {f : Engine → Engine}
    (hag : s.agenda = .issue k (encode i) [] :: .run k :: rest) (he : s.engines[k]? = some e) (hs : e.state = .idle)
    (htbl : startState i = .tbl) (hstep : engineStep i = tableStep f)
    (hf : (f (e.capture (encode i) ⟨i, []⟩)).state = .idle) :
    (∃ t g, core.run 1 s = .next t ∧ t.engines[k]? = some g ∧ g.busy = true) ∧
    core.run 2 s = .next
      { s with agenda := rest, turn := k, engines := s.engines.set k (f (e.capture (encode i) ⟨i, []⟩)) } := by
  have hlen : k < s.engines.length := (List.getElem?_eq_some_iff.mp he).1
  have hissue := step_issue_encode hag he hs (by simp [Command.wellFormed, Command.dataAllowed, fits_iff])
  have hget : (s.engines.set k (e.capture (encode i) ⟨i, []⟩))[k]? = _ := List.getElem?_set_self hlen
  have hbusy : (e.capture (encode i) ⟨i, []⟩).state ≠ .idle := startState_ne_idle i
  have hturn := step_run_of_clean (s := { s with agenda := .run k :: rest, engines := _ }) rfl hget hbusy
    ((congrArg decode (capture_word e (decode_encode i))).trans (decode_encode i))
    (hstep ▸ tableStep_of_tbl htbl f) (by rw [Engine.betweenStepsOk, hf])
  rw [List.set_set] at hturn
  exact ⟨⟨_, _, (run_succ_eq_next core).mpr ⟨_, hissue, rfl⟩, hget, busy_eq_true_iff.mpr hbusy⟩,
    (run_succ_eq_next core).mpr ⟨_, hissue, (run_succ_eq_next core).mpr ⟨_, hturn, rfl⟩⟩⟩

theorem revStep_state (e : Engine) (c : Byte) : (e.revStep c).state = .idle := by
  unfold Engine.revStep
  cases classify c <;> rfl

/-- Settles O48: the one step is that of the captured engine, whose result registers are all 0. -/
theorem tableCommandsTakeOneTurn : Obligations.TableCommandsTakeOneTurn := by
  intro s k e rest he hs
  refine ⟨fun v hag => ?_, fun c hag => ?_⟩
  · rw [fwd_word_eq] at hag
    obtain ⟨hbusy, hrun⟩ := run_table_command hag he hs rfl rfl rfl
    refine ⟨hbusy, _, hrun, rfl, ?_, rfl, rfl, rfl, rfl⟩
    simp [Engine.fwdStep, completeOk_status, Instr.op]
  · rw [rev_word_eq] at hag
    obtain ⟨hbusy, hrun⟩ := run_table_command hag he hs rfl rfl (revStep_state _ c)
    refine ⟨hbusy, _, hrun, ?_⟩
    rw [Engine.revStep]
    cases classify c with
    | value v =>
      refine ⟨rfl, rfl, rfl, fun u hu => ⟨by cases hu; rfl, ?_, rfl⟩, nofun, nofun⟩
      simp [completeOk_status, Instr.op]
    | pad =>
      refine ⟨rfl, rfl, rfl, nofun, fun _ => ⟨rfl, ?_, rfl⟩, nofun⟩
      simp [completeOk_status, Instr.op]
    | invalid =>
      refine ⟨rfl, rfl, rfl, nofun, nofun, fun _ => ⟨rfl, ?_, rfl⟩⟩
      simp [raiseInvalidCharacter_status, Instr.op]

end Sys2Proof.Machine

/-!
PROOFS. The encoder as a function on bits: the units of `encode(B)` are the 5-bit lanes of the whole input read as one
number, filled with zero bits on the right, and the padding of the last group (41_encoder.md R120 to R126).
-/

namespace Sys2Proof.Machine

/-! ### The bytes of a sequence as one number (R56) -/

@[simp] theorem packBytes_nil : packBytes [] = 0 := rfl

/-- A byte enters at the low end (R56, R127). -/
theorem shiftLeft_or_byte (w : Nat) (b : Byte) : w <<< 8 ||| b.toNat = w * 256 + b.toNat := by
  rw [← Nat.shiftLeft_add_eq_or_of_lt b.isLt, Nat.shiftLeft_eq]

theorem packBytes_concat (p : List Byte) (b : Byte) : packBytes (p ++ [b]) = packBytes p * 256 + b.toNat := by
  rw [packBytes, List.foldl_concat, shiftLeft_or_byte]
  rfl

theorem packBytes_append (p q : List Byte) : packBytes (p ++ q) = packBytes p * 2 ^ (8 * q.length) + packBytes q := by
  induction q using List.reverseRecOn with
  | nil => simp
  | append_singleton q b ih =>
    rw [← List.append_assoc, packBytes_concat, packBytes_concat, ih, List.length_append, List.length_singleton,
      Nat.mul_add, Nat.pow_add]
    ring

theorem packBytes_cons (b : Byte) (p : List Byte) :
    packBytes (b :: p) = b.toNat * 2 ^ (8 * p.length) + packBytes p := by
  have hb : packBytes [b] = b.toNat := by simpa using packBytes_concat [] b
  rw [← hb]
  exact packBytes_append [b] p

theorem packBytes_lt (p : List Byte) : packBytes p < 2 ^ (8 * p.length) := by
  induction p using List.reverseRecOn with
  | nil => simp
  | append_singleton p b ih =>
    have := b.isLt
    rw [packBytes_concat, List.length_append, List.length_singleton, Nat.mul_add, Nat.pow_add]
    omega

@[simp] theorem packBytes_replicate_zero (m : Nat) : packBytes (List.replicate m 0#8) = 0 := by
  induction m with
  | zero => rfl
  | succ m ih => simp [List.replicate_succ', packBytes_concat, ih]

/-! ### The 5-bit lanes of a number -/

/-- The 5-bit lanes of the `n` bits of `w`, from the top; the last `n mod 5` bits make none (R122). -/
def lanes (w n : Nat) : List Value := (List.range (n / 5)).map fun j => BitVec.ofNat 5 (w >>> (n - 5 * (j + 1)))

@[simp] theorem lanes_length (w n : Nat) : (lanes w n).length = n / 5 := by
  simp [lanes]

theorem lanes_of_lt {w n : Nat} (h : n < 5) : lanes w n = [] := by
  simp [lanes, Nat.div_eq_of_lt h]

@[simp] theorem lanes_five (w : Nat) : lanes w 5 = [BitVec.ofNat 5 w] := by
  simp [lanes]

/-- The lanes of the upper bits, when they are whole lanes, come before those of the others. -/
theorem lanes_add (w k m : Nat) : lanes w (5 * k + m) = lanes (w >>> m) (5 * k) ++ lanes w m := by
  have hdiv : (5 * k + m) / 5 = k + m / 5 := by omega
  rw [lanes, lanes, lanes, hdiv, List.range_add, List.map_append, List.map_map, Nat.mul_div_cancel_left k (by decide)]
  congr 1
  · refine List.map_congr_left fun j hj => ?_
    have := List.mem_range.mp hj
    rw [← Nat.shiftRight_add]
    congr 2
    omega
  · refine List.map_congr_left fun j _ => ?_
    simp only [Function.comp_apply]
    congr 2
    omega

/-- Bits of `w` above the lanes do not show. -/
theorem lanes_mod (w n : Nat) : lanes (w % 2 ^ n) n = lanes w n := by
  refine List.map_congr_left fun j hj => BitVec.eq_of_getLsbD_eq fun i hi => ?_
  have := List.mem_range.mp hj
  have hbit : n - 5 * (j + 1) + i < n := by omega
  simp only [BitVec.getLsbD_ofNat, Nat.testBit_shiftRight, Nat.testBit_mod_two_pow, hbit, decide_true, Bool.true_and]

/-- Whole lanes in front of `m` more bits. -/
theorem lanes_join (w : Nat) {v m : Nat} (hv : v < 2 ^ m) (k : Nat) :
    lanes (w * 2 ^ m + v) (5 * k + m) = lanes w (5 * k) ++ lanes v m := by
  have hupper : (w * 2 ^ m + v) >>> m = w := by
    rw [Nat.shiftRight_eq_div_pow, Nat.mul_comm, Nat.mul_add_div (Nat.two_pow_pos m), Nat.div_eq_of_lt hv, Nat.add_zero]
  rw [lanes_add, hupper, ← lanes_mod (w * 2 ^ m + v), Nat.mul_comm, Nat.mul_add_mod_of_lt hv]

/-- The lanes are cut from the top: the bits that make none may be dropped. -/
theorem lanes_dropRest (w k : Nat) {r : Nat} (hr : r < 5) : lanes w (5 * k + r) = lanes (w >>> r) (5 * k) := by
  rw [lanes_add, lanes_of_lt hr, List.append_nil]

/-- Zero bits on the right fill up the lane of the `r` lowest bits (R123). -/
theorem lanes_fill (w k : Nat) {r : Nat} (hr : r ≤ 5) :
    lanes (w <<< (5 - r)) (5 * k + 5) = lanes (w >>> r) (5 * k) ++ [BitVec.ofNat 5 ((w % 2 ^ r) <<< (5 - r))] := by
  have hpow : 2 ^ 5 = 2 ^ r * 2 ^ (5 - r) := by rw [← Nat.pow_add, Nat.add_sub_cancel' hr]
  have hsplit : w <<< (5 - r) = (w >>> r) * 2 ^ 5 + (w % 2 ^ r) <<< (5 - r) := by
    rw [hpow, Nat.shiftRight_eq_div_pow, Nat.shiftLeft_eq, Nat.shiftLeft_eq, ← Nat.mul_assoc, ← Nat.add_mul,
      Nat.div_add_mod']
  have hlt : (w % 2 ^ r) <<< (5 - r) < 2 ^ 5 := by
    rw [hpow, Nat.shiftLeft_eq]
    exact Nat.mul_lt_mul_of_pos_right (Nat.mod_lt _ (Nat.two_pow_pos r)) (Nat.two_pow_pos _)
  rw [hsplit, lanes_join _ hlt, lanes_five]

theorem symbolAt_eq (w lo : Nat) : symbolAt w lo = fwdRom (BitVec.ofNat 5 (w >>> lo)) := by
  rw [symbolAt]
  congr 1
  apply BitVec.eq_of_toNat_eq
  rw [BitVec.toNat_ofNat, BitVec.toNat_ofNat, Nat.and_two_pow_sub_one_eq_mod _ 5, Nat.mod_mod]

/-! ### Sequences by groups (R8) -/

/-- A statement about all sequences: of one shorter than a group, and of one more whole group in front. -/
theorem groups_induction {α : Type} {k : Nat} {P : List α → Prop} (hk : 0 < k)
    (short : ∀ s : List α, s.length < k → P s) (group : ∀ g s : List α, g.length = k → P s → P (g ++ s))
    (s : List α) : P s := by
  by_cases h : s.length < k
  · exact short s h
  · have hg : (s.take k).length = k := List.length_take_of_le (Nat.le_of_not_lt h)
    have hs := group (s.take k) (s.drop k) hg (groups_induction hk short group (s.drop k))
    rwa [List.take_append_drop] at hs
termination_by s.length
decreasing_by rw [List.length_drop]; omega

theorem chunksFuel_succ {k fuel : Nat} {s : List Byte} (h : s ≠ []) :
    chunksFuel k (fuel + 1) s = s.take k :: chunksFuel k fuel (s.drop k) := by
  obtain ⟨b, t, rfl⟩ := List.exists_cons_of_ne_nil h
  rfl

@[simp] theorem chunksFuel_nil (k fuel : Nat) : chunksFuel k fuel [] = [] := by
  cases fuel <;> rfl

/-- The number of pieces allowed does not show when there are as many as units. -/
theorem chunksFuel_eq {k : Nat} (hk : 0 < k) {m n : Nat} {s : List Byte} (hm : s.length ≤ m) (hn : s.length ≤ n) :
    chunksFuel k m s = chunksFuel k n s := by
  induction m generalizing n s with
  | zero =>
    obtain rfl : s = [] := List.eq_nil_of_length_eq_zero (Nat.le_zero.mp hm)
    rw [chunksFuel_nil, chunksFuel_nil]
  | succ m ih =>
    by_cases hs : s = []
    · rw [hs, chunksFuel_nil, chunksFuel_nil]
    · have hpos : 0 < s.length := List.length_pos_of_ne_nil hs
      obtain ⟨n, rfl⟩ := Nat.exists_eq_add_of_le' (Nat.lt_of_lt_of_le hpos hn)
      rw [chunksFuel_succ hs, chunksFuel_succ hs, ih (n := n)]
      · rw [List.length_drop]; omega
      · rw [List.length_drop]; omega

@[simp] theorem chunks_nil (k : Nat) : chunks [] k = [] := rfl

/-- The pieces of a sequence that is not empty: the first, and those of the rest. -/
theorem chunks_of_ne_nil {k : Nat} (hk : 0 < k) {s : List Byte} (h : s ≠ []) :
    chunks s k = s.take k :: chunks (s.drop k) k := by
  obtain ⟨n, hn⟩ := Nat.exists_eq_add_of_le' (List.length_pos_of_ne_nil h)
  have hdrop : (s.drop k).length ≤ n := by
    rw [List.length_drop]
    omega
  rw [chunks, hn, chunksFuel_succ h, chunks, chunksFuel_eq hk hdrop le_rfl]

theorem chunks_append {k : Nat} (hk : 0 < k) {g : List Byte} (hg : g.length = k) (s : List Byte) :
    chunks (g ++ s) k = g :: chunks s k := by
  subst hg
  have hne : g ++ s ≠ [] := List.append_ne_nil_of_left_ne_nil (List.ne_nil_of_length_pos hk) s
  rw [chunks_of_ne_nil hk hne, List.take_left, List.drop_left]

theorem chunks_of_length_le {k : Nat} (hk : 0 < k) {s : List Byte} (hs : s ≠ []) (h : s.length ≤ k) :
    chunks s k = [s] := by
  rw [chunks_of_ne_nil hk hs, List.take_of_length_le h, List.drop_eq_nil_of_le h, chunks_nil]

/-! ### The encoder (R120) -/

/-- The symbols have room for all bits. -/
theorem le_groupSymbols (n : Nat) : 8 * n ≤ 5 * groupSymbols n := by
  unfold groupSymbols ceilDiv
  omega

/-- Every whole group makes eight symbols (R126). -/
theorem groupSymbols_eq (n : Nat) : groupSymbols n = 8 * (n / 5) + groupSymbols (n % 5) := by
  unfold groupSymbols ceilDiv
  omega

/-- The values of the symbols of `b` as one sequence, with zero bits on the right up to a whole lane (R123). -/
def symbolValues (b : List Byte) : List Value :=
  lanes (packBytes b <<< (5 * groupSymbols b.length - 8 * b.length)) (5 * groupSymbols b.length)

@[simp] theorem symbolValues_length (b : List Byte) : (symbolValues b).length = groupSymbols b.length := by
  rw [symbolValues, lanes_length, Nat.mul_div_cancel_left _ (by decide)]

/-- A whole group of five bytes is eight lanes, so none crosses its end. -/
theorem symbolValues_append {g : List Byte} (hg : g.length = 5) (s : List Byte) :
    symbolValues (g ++ s) = symbolValues g ++ symbolValues s := by
  have hk : groupSymbols (g ++ s).length = 8 + groupSymbols s.length := by
    rw [List.length_append, hg]
    unfold groupSymbols ceilDiv
    omega
  obtain ⟨f, hf⟩ := Nat.exists_eq_add_of_le (le_groupSymbols s.length)
  have hfill : 5 * (8 + groupSymbols s.length) - 8 * (g ++ s).length = f := by
    rw [List.length_append, hg]
    omega
  have hlt : packBytes s * 2 ^ f < 2 ^ (8 * s.length + f) := by
    rw [Nat.pow_add]
    exact Nat.mul_lt_mul_of_pos_right (packBytes_lt s) (Nat.two_pow_pos f)
  have hg' : symbolValues g = lanes (packBytes g) (5 * 8) := by
    rw [symbolValues, hg]
    rfl
  rw [hg', symbolValues, symbolValues, hk, hfill, hf, Nat.add_sub_cancel_left, Nat.mul_add, hf, packBytes_append,
    Nat.shiftLeft_eq, Nat.shiftLeft_eq, Nat.add_mul, Nat.mul_assoc, ← Nat.pow_add, lanes_join _ hlt]

theorem encodeGroup_eq (g : List Byte) :
    encodeGroup g = (symbolValues g).map fwdRom ++ List.replicate (8 - groupSymbols g.length) padCode := by
  rw [encodeGroup, symbolValues, lanes, List.map_map, Nat.mul_div_cancel_left _ (by decide)]
  congr 1
  refine List.map_congr_left fun j hj => ?_
  have := List.mem_range.mp hj
  rw [symbolAt_eq, Function.comp_apply]
  congr 3
  omega

theorem base32Encode_group_append {g : List Byte} (hg : g.length = 5) (s : List Byte) :
    base32Encode (g ++ s) = encodeGroup g ++ base32Encode s := by
  rw [base32Encode, chunks_append (by decide) hg, List.flatMap_cons]
  rfl

/-- Zero bytes in place of those missing in a group, as R123 fills it: the symbols of the bytes that are there stay. -/
theorem symbolValues_eq_take (g : List Byte) {m : Nat} (hm : g.length + m = 5) :
    symbolValues g = (symbolValues (g ++ List.replicate m 0#8)).take (groupSymbols g.length) := by
  have hle : groupSymbols g.length ≤ 8 := by
    unfold groupSymbols ceilDiv
    omega
  obtain ⟨f, hf⟩ := Nat.exists_eq_add_of_le (le_groupSymbols g.length)
  obtain ⟨c, hc⟩ := Nat.exists_eq_add_of_le hle
  have hfull : groupSymbols (g ++ List.replicate m 0#8).length = groupSymbols g.length + c := by
    rw [List.length_append, List.length_replicate, hm, ← hc]
    rfl
  have hshift : packBytes (g ++ List.replicate m 0#8) = packBytes g <<< f * 2 ^ (5 * c) + 0 := by
    rw [packBytes_append, packBytes_replicate_zero, List.length_replicate, Nat.shiftLeft_eq, Nat.mul_assoc,
      ← Nat.pow_add]
    congr 3
    omega
  have hfill : 5 * (groupSymbols g.length + c) - 8 * (g ++ List.replicate m 0#8).length = 0 := by
    rw [List.length_append, List.length_replicate, hm, ← hc]
  have hlanes : (lanes (packBytes g <<< f) (5 * groupSymbols g.length)).length = groupSymbols g.length := by
    rw [lanes_length, Nat.mul_div_cancel_left _ (by decide)]
  rw [symbolValues, symbolValues, hfull, hfill, Nat.shiftLeft_zero, hshift, Nat.mul_add,
    lanes_join _ (Nat.two_pow_pos _), List.take_left' hlanes, Nat.sub_eq_of_eq_add' hf]

/-- The low bits of a number as a concatenation. -/
theorem ofNat_eq_append {m n w : Nat} {x : BitVec m} {y : BitVec n} (h : w % 2 ^ (m + n) = x.toNat * 2 ^ n + y.toNat) :
    BitVec.ofNat (m + n) w = x ++ y :=
  BitVec.eq_of_toNat_eq (by rw [BitVec.toNat_ofNat, h, toNat_append_eq_add])

/-- The eight lanes of the 40-bit word (R122). -/
theorem symbolValues_five (b0 b1 b2 b3 b4 : Byte) :
    symbolValues [b0, b1, b2, b3, b4] =
      [b0.extractLsb' 3 5, b0.extractLsb' 0 3 ++ b1.extractLsb' 6 2, b1.extractLsb' 1 5,
       b1.extractLsb' 0 1 ++ b2.extractLsb' 4 4, b2.extractLsb' 0 4 ++ b3.extractLsb' 7 1, b3.extractLsb' 2 5,
       b3.extractLsb' 0 2 ++ b4.extractLsb' 5 3, b4.extractLsb' 0 5] := by
  have hw : packBytes [b0, b1, b2, b3, b4] =
      b0.toNat * 2 ^ 32 + b1.toNat * 2 ^ 24 + b2.toNat * 2 ^ 16 + b3.toNat * 2 ^ 8 + b4.toNat := by
    simp [packBytes_cons, Nat.add_assoc]
  have := b1.isLt
  have := b2.isLt
  have := b3.isLt
  have := b4.isLt
  simp only [symbolValues, hw, lanes, groupSymbols, ceilDiv, List.length_cons, List.length_nil, Nat.reduceAdd,
    Nat.reduceMul, Nat.reduceDiv, Nat.reduceSub, Nat.shiftLeft_zero, List.range_eq_range', List.range'_succ,
    List.range'_zero, List.map_cons, List.map_nil, List.cons.injEq, and_true]
  refine ⟨BitVec.eq_of_toNat_eq ?_, ofNat_eq_append (m := 3) (n := 2) ?_, BitVec.eq_of_toNat_eq ?_,
    ofNat_eq_append (m := 1) (n := 4) ?_, ofNat_eq_append (m := 4) (n := 1) ?_, BitVec.eq_of_toNat_eq ?_,
    ofNat_eq_append (m := 2) (n := 3) ?_, BitVec.eq_of_toNat_eq ?_⟩ <;>
  · simp only [BitVec.extractLsb'_toNat, BitVec.toNat_ofNat, Nat.shiftRight_eq_div_pow]
    omega

/-- Settles O35: a full group has no padding. -/
theorem fullGroupLaneTable : Obligations.FullGroupLaneTable := by
  intro b0 b1 b2 b3 b4
  simp [encodeGroup_eq, symbolValues_five, groupSymbols, ceilDiv]

/-- Settles O36: with zero bytes for those missing the group is full, and its first lanes are those of the bytes there
are. -/
theorem partialGroupTable : Obligations.PartialGroupTable := by
  refine ⟨fun b0 => ?_, fun b0 b1 => ?_, fun b0 b1 b2 => ?_, fun b0 b1 b2 b3 => ?_⟩
  · rw [encodeGroup_eq, symbolValues_eq_take [b0] (m := 4) rfl]
    simp [symbolValues_five, groupSymbols, ceilDiv, padCode]
  · rw [encodeGroup_eq, symbolValues_eq_take [b0, b1] (m := 3) rfl]
    simp [symbolValues_five, groupSymbols, ceilDiv, padCode]
  · rw [encodeGroup_eq, symbolValues_eq_take [b0, b1, b2] (m := 2) rfl]
    simp [symbolValues_five, groupSymbols, ceilDiv, padCode]
  · rw [encodeGroup_eq, symbolValues_eq_take [b0, b1, b2, b3] (m := 1) rfl]
    simp [symbolValues_five, groupSymbols, ceilDiv, padCode]

/-- The number of `PAD` codes after `n` bytes (R124). -/
def padCount (n : Nat) : Nat := 8 * ceilDiv n 5 - groupSymbols n

theorem padCount_of_partial {n : Nat} (h : n % 5 ≠ 0) : padCount n = 8 - groupSymbols (n % 5) := by
  have hblocks : ceilDiv n 5 = n / 5 + 1 := by
    unfold ceilDiv
    omega
  rw [padCount, groupSymbols_eq, hblocks]
  omega

/-- R120, R126: the output is the symbols of the whole input and then the padding. -/
theorem base32Encode_eq (b : List Byte) :
    base32Encode b = (symbolValues b).map fwdRom ++ List.replicate (padCount b.length) padCode := by
  induction b using groups_induction (k := 5) (by decide) with
  | short s hs =>
    by_cases h0 : s = []
    · subst h0
      rfl
    · have hpos : 0 < s.length := List.length_pos_of_ne_nil h0
      have hsame : padCount s.length = 8 - groupSymbols s.length := by
        unfold padCount ceilDiv
        omega
      rw [base32Encode, chunks_of_length_le (by decide) h0 hs.le, List.flatMap_singleton, encodeGroup_eq, hsame]
  | group g s hg ih =>
    rw [base32Encode_group_append hg, ih, encodeGroup_eq, symbolValues_append hg, List.map_append, List.append_assoc]
    have hnone : 8 - groupSymbols g.length = 0 := by rw [hg]; rfl
    have hsame : padCount (g ++ s).length = padCount s.length := by
      rw [List.length_append, hg]
      unfold padCount groupSymbols ceilDiv
      omega
    rw [hnone, hsame]
    simp

/-- Whole groups are encoded apart from what follows them (R126). -/
theorem base32Encode_append (b c : List Byte) (h : b.length % 5 = 0) :
    base32Encode (b ++ c) = base32Encode b ++ base32Encode c := by
  induction b using groups_induction (k := 5) (by decide) with
  | short s hs =>
    obtain rfl : s = [] := List.eq_nil_of_length_eq_zero (by omega)
    rfl
  | group g s hg ih =>
    rw [List.length_append, hg, Nat.add_mod_left] at h
    rw [List.append_assoc, base32Encode_group_append hg, base32Encode_group_append hg, ih h, List.append_assoc]

/-- Settles O37: the output is one row of symbols and the padding, and whole groups are encoded apart. -/
theorem encoderOutputLaws : Obligations.EncoderOutputLaws := by
  refine ⟨fun b => ?_, fun b => ⟨symbolValues b, padCount b.length, base32Encode_eq b, symbolValues_length b, ?_, ?_⟩,
    base32Encode_append⟩
  · rw [base32Encode_eq, List.length_append, List.length_map, symbolValues_length, List.length_replicate]
    unfold padCount groupSymbols ceilDiv
    omega
  · exact (symbolValues_length b).trans (groupSymbols_eq b.length)
  · unfold padCount groupSymbols ceilDiv
    split_ifs <;> omega

/-! ### The bits that make no whole lane -/

/-- The bits of `p` that make no whole lane, `8 N mod 5` of them (R32). -/
def pendingBits (p : List Byte) : Nat := packBytes p % 2 ^ (8 * p.length % 5)

theorem pendingBits_lt (p : List Byte) : pendingBits p < 2 ^ (8 * p.length % 5) := Nat.mod_lt _ (Nat.two_pow_pos _)

/-- The number of `p` and one more byte, cut above the pending bits of `p`. -/
theorem packBytes_concat_cut (p : List Byte) (b : Byte) :
    packBytes (p ++ [b]) =
      (packBytes p >>> (8 * p.length % 5)) * 2 ^ (8 * p.length % 5 + 8) + (pendingBits p * 256 + b.toNat) := by
  rw [packBytes_concat, pendingBits, Nat.shiftRight_eq_div_pow, Nat.pow_add, ← Nat.mul_assoc, ← Nat.add_assoc]
  change _ = _ * 256 + _ * 256 + _
  rw [← Nat.add_mul, Nat.div_add_mod']

/-- One more byte adds the whole lanes of the pending bits and the byte (R127). -/
theorem lanes_packBytes_concat (p : List Byte) (b : Byte) :
    lanes (packBytes (p ++ [b])) (8 * (p.length + 1)) = lanes (packBytes p) (8 * p.length) ++
      lanes (pendingBits p * 256 + b.toNat) (8 * p.length % 5 + 8) := by
  have hlen : 8 * (p.length + 1) = 5 * (8 * p.length / 5) + (8 * p.length % 5 + 8) := by omega
  have hlt : pendingBits p * 256 + b.toNat < 2 ^ (8 * p.length % 5 + 8) := by
    have := b.isLt
    have := pendingBits_lt p
    rw [Nat.pow_add]
    omega
  rw [packBytes_concat_cut, hlen, lanes_join _ hlt, ← lanes_dropRest _ _ (Nat.mod_lt _ (by decide)), Nat.div_add_mod]

/-- The bits pending after one more byte are the lowest of those pending and the byte (R127). -/
theorem pendingBits_concat (p : List Byte) (b : Byte) :
    pendingBits (p ++ [b]) = (pendingBits p * 256 + b.toNat) % 2 ^ (8 * (p.length + 1) % 5) := by
  have hdvd : 2 ^ (8 * (p.length + 1) % 5) ∣ 2 ^ (8 * p.length % 5 + 8) := Nat.pow_dvd_pow 2 (by omega)
  rw [pendingBits, packBytes_concat_cut, List.length_append, List.length_singleton, ← Nat.mod_add_mod,
    Nat.mod_eq_zero_of_dvd (hdvd.mul_left _), Nat.zero_add]

/-- After whole groups nothing is filled in. -/
theorem symbolValues_of_whole {p : List Byte} (h : p.length % 5 = 0) :
    symbolValues p = lanes (packBytes p) (8 * p.length) := by
  have hk : 5 * groupSymbols p.length = 8 * p.length := by
    unfold groupSymbols ceilDiv
    omega
  rw [symbolValues, hk, Nat.sub_self, Nat.shiftLeft_zero]

/-- After a partial group the bits left over, filled with zero bits, make the last symbol (R123). -/
theorem symbolValues_of_partial {p : List Byte} (h : p.length % 5 ≠ 0) :
    symbolValues p = lanes (packBytes p) (8 * p.length) ++
      [BitVec.ofNat 5 (pendingBits p <<< (5 - 8 * p.length % 5))] := by
  have hr : 8 * p.length % 5 < 5 := Nat.mod_lt _ (by decide)
  have hk : 5 * groupSymbols p.length = 5 * (8 * p.length / 5) + 5 := by
    have hne : 8 * p.length % 5 ≠ 0 := by omega
    unfold groupSymbols ceilDiv
    omega
  have hfill : 5 * groupSymbols p.length - 8 * p.length = 5 - 8 * p.length % 5 := by omega
  rw [symbolValues, hfill, hk, lanes_fill _ _ hr.le, ← lanes_dropRest _ _ hr, Nat.div_add_mod, pendingBits]

end Sys2Proof.Machine

/-!
PROOFS. The steps of `ENC`: a byte step and the end step in numbers, and the command from issue to completion, which
follows the input read as one number (41_encoder.md R127 to R129).
-/

namespace Sys2Proof.Machine

/-! ### One step (R127, R128) -/

/-- The byte step of `ENC` is enabled while a byte is left (R127). -/
theorem encStep_of_byte {e : Engine} {b : Byte} (hs : e.state = .enc) (hi : e.i < e.n) (hb : e.input[e.i]? = some b) :
    e.encStep = .next (Progress.clean (e.encByte b)) := by
  simp only [Engine.encStep, hs, if_pos hi, readIn_eq_some.mpr ⟨hi, hb⟩]

/-- The end step of `ENC` is enabled when no byte is left (R128). -/
theorem encStep_of_end {e : Engine} (hs : e.state = .enc) (hi : e.i = e.n) :
    e.encStep = .next (Progress.clean e.encEnd) := by
  simp only [Engine.encStep, hs, hi, lt_irrefl, if_false, if_true]

/-- How many symbols a byte step sends out and how many bits it keeps, by the position in the group (R127). -/
theorem encByte_table {g nb k nb' : Nat} (hg : g < 5) (hnb : nb = 8 * g % 5) (hbits : 5 * k + nb' = nb + 8)
    (hleft : nb' < 5) :
    (g = 0 ∧ nb = 0 ∧ k = 1 ∧ nb' = 3) ∨ (g = 1 ∧ nb = 3 ∧ k = 2 ∧ nb' = 1) ∨ (g = 2 ∧ nb = 1 ∧ k = 1 ∧ nb' = 4) ∨
      (g = 3 ∧ nb = 4 ∧ k = 2 ∧ nb' = 2) ∨ (g = 4 ∧ nb = 2 ∧ k = 2 ∧ nb' = 0) := by
  subst hnb
  interval_cases g <;> omega

/-- R127 in numbers: the symbols of a byte step. -/
theorem encSymbols_add_eight (t nb : Nat) : encSymbols t (nb + 8) = [fwdRom (BitVec.ofNat 5 (t / 2 ^ (nb + 3)))] ++
    if 2 ≤ nb then [fwdRom (BitVec.ofNat 5 (t / 2 ^ (nb - 2)))] else [] := by
  have hif : 5 ≤ nb + 8 - 5 ↔ 2 ≤ nb := by omega
  simp only [encSymbols, symbolAt_eq, Nat.shiftRight_eq_div_pow, hif]
  rfl

/-- R127 in numbers: how many bits a byte step keeps. -/
theorem encBitsLeft_add_eight (nb : Nat) : encBitsLeft (nb + 8) = if 2 ≤ nb then nb - 2 else nb + 3 := by
  unfold encBitsLeft
  split_ifs <;> omega

/-- R127: the pending bits and the byte make the symbols, and the rest of the bits stays. -/
theorem encByte_eq (e : Engine) (b : Byte) :
    e.encByte b = { e with
      out := e.out ++ encSymbols (e.acc.toNat * 256 + b.toNat) (e.nb.toNat + 8)
      acc := BitVec.ofNat 7 ((e.acc.toNat * 256 + b.toNat) % 2 ^ encBitsLeft (e.nb.toNat + 8))
      nb := BitVec.ofNat 3 (encBitsLeft (e.nb.toNat + 8))
      i := e.i + 1, g := BitVec.ofNat 3 ((e.g.toNat + 1) % 5) } := by
  simp only [Engine.encByte, shiftLeft_or_byte, Nat.one_shiftLeft, Nat.and_two_pow_sub_one_eq_mod]
  rfl

/-- Settles O15: the byte step is enabled, and its symbols and the bits that stay are those of the rule. -/
theorem encByteStepEmitsAndCarries : Obligations.EncByteStepEmitsAndCarries := by
  intro s e b hturn hs hi hb
  rw [exec_of_clean (i := .enc) hturn (encStep_of_byte hs hi hb), encByte_eq, encSymbols_add_eight,
    encBitsLeft_add_eight, List.append_assoc]

/-- Settles O16: R35 gives `NB` from `G`; of the `NB + 8` bits five go out in each symbol and fewer than five stay. -/
theorem encByteStepByPosition : Obligations.EncByteStepByPosition := by
  intro c e b hinv hs
  obtain ⟨-, hg, hnb, -⟩ := (phaseInv_enc hs).mp hinv.phase
  obtain ⟨k, hout, hbits, hleft, hacc⟩ := encByte_bits e b (by omega)
  have hg' : (e.encByte b).g.toNat = (e.g.toNat + 1) % 5 := by
    rw [encByte_eq, BitVec.toNat_ofNat, Nat.mod_eq_of_lt (by omega)]
  have htable := encByte_table (by omega) hnb hbits hleft
  simp only [← BitVec.toNat_inj, hout, hg', BitVec.ofNat_eq_ofNat, BitVec.toNat_ofNat, Nat.reducePow, Nat.reduceMod]
  refine ⟨?_, ?_, fun h0 => ?_⟩
  · split <;> omega
  · obtain ⟨hg, hnb, -, hnb'⟩ | ⟨hg, hnb, -, hnb'⟩ | ⟨hg, hnb, -, hnb'⟩ | ⟨hg, hnb, -, hnb'⟩ |
      ⟨hg, hnb, -, hnb'⟩ := htable <;>
      simp [hg, hnb, hnb']
  · have hnb0 : (e.encByte b).nb.toNat = 0 := by omega
    rw [hnb0] at hacc
    omega

/-- Settles O17: the end step is enabled, and what it appends is the rule's last symbol and padding, in numbers. -/
theorem encEndStepPadsAndCompletes : Obligations.EncEndStepPadsAndCompletes := by
  intro s e hturn hs hi
  rw [exec_of_clean (i := .enc) hturn (encStep_of_end hs hi)]
  have htail : e.encTail = if e.g = 0 then [] else
      fwdRom (BitVec.ofNat 5 (e.acc.toNat * 2 ^ (5 - e.nb.toNat))) ::
        List.replicate (8 - (8 * e.g.toNat + 4) / 5) 0x3D := by
    rw [Engine.encTail, symbolAt_eq, Nat.shiftRight_zero, Nat.shiftLeft_eq]
    rfl
  simp only [← htail]
  rfl

/-! ### `ENC` from issue to completion (R129) -/

/-- The engine `e`, which has just captured `ENC`, after its byte steps for the bytes `p`: all whole lanes of `p` are in
`OUT`, and the bits left over are pending. -/
def Engine.afterBytes (e : Engine) (p : List Byte) : Engine :=
  { e with
    i := p.length
    g := BitVec.ofNat 3 (p.length % 5)
    acc := BitVec.ofNat 7 (pendingBits p)
    nb := BitVec.ofNat 3 (8 * p.length % 5)
    out := (lanes (packBytes p) (8 * p.length)).map fwdRom }

section AfterBytes

variable (e : Engine) (p : List Byte)

theorem afterBytes_g_toNat : (e.afterBytes p).g.toNat = p.length % 5 := Nat.mod_eq_of_lt (by omega)

theorem afterBytes_nb_toNat : (e.afterBytes p).nb.toNat = 8 * p.length % 5 := Nat.mod_eq_of_lt (by omega)

theorem afterBytes_acc_toNat : (e.afterBytes p).acc.toNat = pendingBits p := by
  have hle : 2 ^ (8 * p.length % 5) ≤ 2 ^ 7 := Nat.pow_le_pow_right (by decide) (by omega)
  exact Nat.mod_eq_of_lt ((pendingBits_lt p).trans_le hle)

end AfterBytes

/-- The symbols of a byte step are the whole lanes of its bits. -/
theorem encSymbols_eq_lanes (t : Nat) {r : Nat} (hr : r < 5) : encSymbols t (r + 8) = (lanes t (r + 8)).map fwdRom := by
  rw [encSymbols_add_eight, lanes]
  split
  next h =>
    have hdiv : (r + 8) / 5 = 2 := by omega
    simp [hdiv, List.range_succ, Nat.shiftRight_eq_div_pow]
  next h =>
    have hdiv : (r + 8) / 5 = 1 := by omega
    simp [hdiv, Nat.shiftRight_eq_div_pow]

theorem encBitsLeft_eq_mod {r : Nat} (hr : r < 5) : encBitsLeft (r + 8) = (r + 8) % 5 := by
  rw [encBitsLeft_add_eight]
  split <;> omega

/-- A byte step goes on with the next byte, whatever the bytes are (R127). -/
theorem encByte_afterBytes (e : Engine) (p : List Byte) (b : Byte) :
    (e.afterBytes p).encByte b = e.afterBytes (p ++ [b]) := by
  have hr : 8 * p.length % 5 < 5 := Nat.mod_lt _ (by decide)
  have hrest : (8 * p.length % 5 + 8) % 5 = 8 * (p.length + 1) % 5 := by omega
  rw [encByte_eq, afterBytes_acc_toNat, afterBytes_nb_toNat, afterBytes_g_toNat, encSymbols_eq_lanes _ hr,
    encBitsLeft_eq_mod hr, hrest, Nat.mod_add_mod, ← pendingBits_concat]
  simp only [Engine.afterBytes, List.length_append, List.length_singleton, lanes_packBytes_concat, List.map_append]

/-- R128: the last symbol and the padding complete the encoding of the bytes read. -/
theorem afterBytes_out_append_encTail (e : Engine) (p : List Byte) :
    (e.afterBytes p).out ++ (e.afterBytes p).encTail = base32Encode p := by
  rw [base32Encode_eq, Engine.encTail, afterBytes_acc_toNat, afterBytes_nb_toNat, afterBytes_g_toNat]
  by_cases h : p.length % 5 = 0
  · have hg : (e.afterBytes p).g = 0 := BitVec.eq_of_toNat_eq ((afterBytes_g_toNat e p).trans h)
    have hpad : padCount p.length = 0 := by
      unfold padCount groupSymbols ceilDiv
      omega
    rw [if_pos hg, symbolValues_of_whole h, hpad]
    rfl
  · have hg : (e.afterBytes p).g ≠ 0 := fun h0 => h ((afterBytes_g_toNat e p).symm.trans (congrArg BitVec.toNat h0))
    rw [if_neg hg, symbolValues_of_partial h, padCount_of_partial h, groupSymbols, symbolAt_eq, Nat.shiftRight_zero]
    simp [Engine.afterBytes]

theorem encEnd_afterBytes (e : Engine) (p : List Byte) :
    (e.afterBytes p).encEnd = ({ e.afterBytes p with out := base32Encode p } : Engine).completeOk := by
  rw [← afterBytes_out_append_encTail e p]
  rfl

/-- After each byte step the engine meets the invariants between steps (R35). -/
theorem afterBytes_betweenStepsOk {e : Engine} (hs : e.state = .enc) (p : List Byte) :
    (e.afterBytes p).betweenStepsOk = true := by
  have hstate : (e.afterBytes p).state = .enc := hs
  have hacc : (e.afterBytes p).accOk = true := by
    rw [Engine.accOk, afterBytes_acc_toNat, afterBytes_nb_toNat]
    exact decide_eq_true (pendingBits_lt p)
  have hnb : 8 * p.length % 5 = 8 * (p.length % 5) % 5 := by omega
  have hout : 8 * p.length / 5 = 8 * (p.length / 5) + 8 * (p.length % 5) / 5 := by omega
  simp only [Engine.betweenStepsOk, hstate, hacc, afterBytes_nb_toNat, afterBytes_g_toNat, hnb]
  simp [Engine.afterBytes, hout]

/-- A run goes on from where its first steps led, for any machine. -/
theorem run_add_of_next {M : Host.Core} {m : Nat} {s u : M.State} (h : M.run m s = .next u) (n : Nat) :
    M.run (m + n) s = M.run n u := by
  induction m generalizing s with
  | zero =>
    cases h
    rw [Nat.zero_add]
  | succ m ih =>
    obtain ⟨s', hs', hrun⟩ := (run_succ_eq_next M).mp h
    rw [Nat.add_right_comm, Host.Core.run, hs']
    exact ih hrun

section Run

variable {k : Nat} {e : Engine} (hs : e.state = .enc) (hw : decode e.word = .ok .enc) (hn : e.n = e.input.length)
include hs hw hn

/-- As many turns as there are bytes left make the byte steps for them (R127, R239). -/
theorem run_enc_byteSteps {p q : List Byte} {rest : List Event} {s : State} (hin : e.input = p ++ q)
    (hag : s.agenda = List.replicate q.length (.run k) ++ rest) (he : s.engines[k]? = some (e.afterBytes p)) :
    ∃ turn, core.run q.length s = .next
      { s with agenda := rest, turn := turn, engines := s.engines.set k (e.afterBytes (p ++ q)) } := by
  induction q generalizing p s with
  | nil =>
    rw [List.append_nil, set_of_getElem? he]
    exact ⟨s.turn, congrArg _ (by rw [← show s.agenda = rest from hag])⟩
  | cons b q ih =>
    have hlen : k < s.engines.length := (List.getElem?_eq_some_iff.mp he).1
    have hbyte : (e.afterBytes p).encStep = .next (Progress.clean (e.afterBytes (p ++ [b]))) := by
      rw [← encByte_afterBytes]
      refine encStep_of_byte hs ?_ ?_
      · simp [Engine.afterBytes, hn, hin]
      · simp [Engine.afterBytes, hin]
    have hstep := step_run_of_clean hag he (by simp [Engine.afterBytes, hs]) hw hbyte (afterBytes_betweenStepsOk hs _)
    obtain ⟨turn, hrun⟩ := ih (p := p ++ [b]) (s := { s with agenda := _, turn := k, engines := _ })
      (hin.trans (List.append_cons p b q)) rfl (List.getElem?_set_self hlen)
    rw [List.set_set, ← List.append_cons] at hrun
    exact ⟨turn, (run_succ_eq_next core).mpr ⟨_, hstep, hrun⟩⟩

/-- The turn after the last byte step completes the command (R128). -/
theorem step_enc_endStep {rest : List Event} {s : State} (hag : s.agenda = .run k :: rest)
    (he : s.engines[k]? = some (e.afterBytes e.input)) :
    step s = .next { s with agenda := rest, turn := k, engines := s.engines.set k (e.afterBytes e.input).encEnd } :=
  step_run_of_clean hag he (by simp [Engine.afterBytes, hs]) hw (encStep_of_end hs hn.symm) rfl

/-- The turns of a whole command that has just been captured: the byte steps and the end step. -/
theorem run_enc {rest : List Event} {s : State} (hcaptured : e.afterBytes [] = e) (he : s.engines[k]? = some e)
    (hag : s.agenda = List.replicate (e.input.length + 1) (.run k) ++ rest) :
    (∃ turn, core.run e.input.length s = .next
      { s with agenda := .run k :: rest, turn := turn, engines := s.engines.set k (e.afterBytes e.input) }) ∧
    core.run (e.input.length + 1) s = .next
      { s with agenda := rest, turn := k, engines := s.engines.set k (e.afterBytes e.input).encEnd } := by
  have hlen : k < s.engines.length := (List.getElem?_eq_some_iff.mp he).1
  rw [List.replicate_succ', List.append_assoc] at hag
  obtain ⟨turn, hbytes⟩ := run_enc_byteSteps hs hw hn (List.nil_append _).symm hag (hcaptured.symm ▸ he)
  rw [List.nil_append] at hbytes
  have hend := step_enc_endStep hs hw hn (s := { s with agenda := .run k :: rest, turn := turn, engines := _ }) rfl
    (List.getElem?_set_self hlen)
  rw [List.set_set] at hend
  exact ⟨⟨turn, hbytes⟩, (run_add_of_next hbytes 1).trans ((run_succ_eq_next core).mpr ⟨_, hend, rfl⟩)⟩

end Run

/-- Settles O46: after the byte steps the captured engine is still busy, and the end step completes the encoding. -/
theorem encCommandComputesEncode : Obligations.EncCommandComputesEncode := by
  intro s k e d rest he hs hfits hag
  have hlen : k < s.engines.length := (List.getElem?_eq_some_iff.mp he).1
  have hissue := step_issue_encode (i := .enc) hag he hs hfits
  have hword : decode (e.capture (encode .enc) ⟨.enc, d⟩).word = .ok .enc :=
    (congrArg decode (capture_word e (decode_encode .enc))).trans (decode_encode .enc)
  obtain ⟨⟨turn, hbytes⟩, hend⟩ := run_enc (e := e.capture (encode .enc) ⟨.enc, d⟩) rfl hword rfl
    (s := { s with agenda := _, engines := _ }) rfl (List.getElem?_set_self hlen) rfl
  rw [List.set_set] at hbytes hend
  refine ⟨⟨_, _, (run_succ_eq_next core).mpr ⟨_, hissue, hbytes⟩, List.getElem?_set_self hlen, rfl⟩, _,
    (run_succ_eq_next core).mpr ⟨_, hissue, hend⟩, ?_⟩
  rw [encEnd_afterBytes]
  exact ⟨rfl, rfl, by simp [completeOk_status, Engine.afterBytes, Instr.op], rfl, rfl, rfl, rfl⟩

end Sys2Proof.Machine

/-!
PROOFS. The decoder as a function on bits: a group gives the whole bytes of its values read as one number, and the text
is decoded group by group after all of it is validated (42_decoder.md R150 to R160, R166, R167).
-/

namespace Sys2Proof.Machine

/-! ### The values of a group as one number, and its whole bytes (R155) -/

/-- The values in order as one big-endian number, five bits each (R57). -/
def packValues (vs : List Value) : Nat := vs.foldl (fun w v => w * 32 + v.toNat) 0

theorem packValues_concat (vs : List Value) (v : Value) :
    packValues (vs ++ [v]) = packValues vs * 32 + v.toNat := List.foldl_concat ..

/-- The `k` lowest bytes of a number, the highest of them first. -/
def unpackBytes : Nat → Nat → List Byte
  | 0, _ => []
  | k + 1, w => unpackBytes k (w / 256) ++ [BitVec.ofNat 8 w]

@[simp] theorem unpackBytes_length (k w : Nat) : (unpackBytes k w).length = k := by
  induction k generalizing w with
  | zero => rfl
  | succ k ih => rw [unpackBytes, List.length_append, ih, List.length_singleton]

theorem unpackBytes_join (k q : Nat) {x : Nat} (hx : x < 256) :
    unpackBytes (k + 1) (q * 256 + x) = unpackBytes k q ++ [BitVec.ofNat 8 x] := by
  have hupper : (q * 256 + x) / 256 = q := by omega
  have hbyte : BitVec.ofNat 8 (q * 256 + x) = BitVec.ofNat 8 x :=
    BitVec.eq_of_toNat_eq (by rw [BitVec.toNat_ofNat, BitVec.toNat_ofNat, Nat.mul_add_mod_self_right])
  rw [unpackBytes, hupper, hbyte]

/-- Unpacking gives back the bytes that were packed. -/
theorem unpackBytes_packBytes (p : List Byte) : unpackBytes p.length (packBytes p) = p := by
  induction p using List.reverseRecOn with
  | nil => rfl
  | append_singleton p b ih =>
    rw [List.length_append, List.length_singleton, packBytes_concat, unpackBytes_join _ _ b.isLt, ih,
      BitVec.ofNat_toNat, BitVec.setWidth_eq]

/-- The bits of the values `vs` that make no whole byte, `5 m mod 8` of them (R156). -/
def restBits (vs : List Value) : Nat := packValues vs % 2 ^ (5 * vs.length % 8)

/-- The whole bytes of the values `vs`, `5 m div 8` of them (R155). -/
def valueBytes (vs : List Value) : List Byte :=
  unpackBytes (5 * vs.length / 8) (packValues vs / 2 ^ (5 * vs.length % 8))

theorem restBits_lt (vs : List Value) : restBits vs < 2 ^ (5 * vs.length % 8) := Nat.mod_lt _ (Nat.two_pow_pos _)

@[simp] theorem valueBytes_length (vs : List Value) : (valueBytes vs).length = 5 * vs.length / 8 :=
  unpackBytes_length _ _

/-- R150 in numbers: with three bits or more pending, a value completes a byte. -/
theorem accumulate_eq (acc nb : Nat) (v : Value) : accumulate acc nb v =
    if 3 ≤ nb then
      ([BitVec.ofNat 8 ((acc * 32 + v.toNat) / 2 ^ (nb - 3))], (acc * 32 + v.toNat) % 2 ^ (nb - 3), nb - 3)
    else ([], (acc * 32 + v.toNat) % 2 ^ (nb + 5), nb + 5) := by
  have ht : acc <<< 5 ||| v.toNat = acc * 32 + v.toNat := by
    rw [← Nat.shiftLeft_add_eq_or_of_lt v.isLt, Nat.shiftLeft_eq]
  have hif : 8 ≤ nb + 5 ↔ 3 ≤ nb := by omega
  have hbyte (t : Nat) : BitVec.ofNat 8 (t &&& 0xFF) = BitVec.ofNat 8 t :=
    BitVec.eq_of_toNat_eq (by
      rw [BitVec.toNat_ofNat, BitVec.toNat_ofNat, Nat.and_two_pow_sub_one_eq_mod _ 8, Nat.mod_mod])
  simp only [accumulate, ht, hif, hbyte, Nat.one_shiftLeft, Nat.and_two_pow_sub_one_eq_mod, Nat.shiftRight_eq_div_pow]
  rfl

/-- The number of `vs` and one more value, cut above the rest bits of `vs`. -/
theorem packValues_concat_cut (vs : List Value) (v : Value) :
    packValues (vs ++ [v]) = packValues vs / 2 ^ (5 * vs.length % 8) * 2 ^ (5 * vs.length % 8 + 5) +
      (restBits vs * 32 + v.toNat) := by
  rw [packValues_concat, restBits, Nat.pow_add, ← Nat.mul_assoc, ← Nat.add_assoc]
  change _ = _ * 32 + _ * 32 + _
  rw [← Nat.add_mul, Nat.div_add_mod']

theorem restBits_concat_lt (vs : List Value) (v : Value) :
    restBits vs * 32 + v.toNat < 2 ^ (5 * vs.length % 8 + 5) := by
  have := restBits_lt vs
  have := v.isLt
  rw [Nat.pow_add]
  omega

/-- The accumulator goes through the values: it emits their whole bytes one by one and keeps the rest (R155). -/
theorem accumulate_restBits (vs : List Value) (v : Value) :
    ∃ bs, accumulate (restBits vs) (5 * vs.length % 8) v =
        (bs, restBits (vs ++ [v]), 5 * (vs ++ [v]).length % 8) ∧
      valueBytes (vs ++ [v]) = valueBytes vs ++ bs := by
  have hlt := restBits_concat_lt vs v
  rw [accumulate_eq, valueBytes, valueBytes, restBits.eq_def (vs ++ [v]), packValues_concat_cut, List.length_append,
    List.length_singleton]
  generalize restBits vs * 32 + v.toNat = x at hlt
  generalize packValues vs / 2 ^ (5 * vs.length % 8) = q
  split
  next h =>
    obtain ⟨r, hr⟩ := Nat.exists_eq_add_of_le' h
    have hmod : 5 * (vs.length + 1) % 8 = r := by omega
    have hdiv : 5 * (vs.length + 1) / 8 = 5 * vs.length / 8 + 1 := by omega
    have hpow : 2 ^ (r + 3 + 5) = 2 ^ r * 256 := Nat.pow_add 2 r 8
    rw [hr, hpow] at hlt
    rw [hmod, hdiv, hr, hpow, Nat.mul_left_comm, Nat.mul_add_mod, Nat.mul_add_div (Nat.two_pow_pos r),
      unpackBytes_join _ _ (Nat.div_lt_of_lt_mul hlt), Nat.add_sub_cancel]
    exact ⟨_, rfl, rfl⟩
  next h =>
    have hmod : 5 * (vs.length + 1) % 8 = 5 * vs.length % 8 + 5 := by omega
    have hdiv : 5 * (vs.length + 1) / 8 = 5 * vs.length / 8 := by omega
    rw [hmod, hdiv, Nat.mul_add_mod_self_right, Nat.mul_comm q, Nat.mul_add_div (Nat.two_pow_pos _),
      Nat.div_eq_of_lt hlt, Nat.mod_eq_of_lt hlt, Nat.add_zero]
    exact ⟨_, rfl, (List.append_nil _).symm⟩

/-! ### One group (R153 to R157) -/

/-- The values of a group, up to its first code that is none (R154). -/
def groupValues : List Byte → List Value
  | [] => []
  | c :: cs =>
    match classify c with
    | .value v => v :: groupValues cs
    | .pad => []
    | .invalid => []

theorem groupValues_cons_value {c : Byte} {v : Value} (h : classify c = .value v) (cs : List Byte) :
    groupValues (c :: cs) = v :: groupValues cs := by
  rw [groupValues, h]

theorem groupValues_cons_pad {c : Byte} (h : classify c = .pad) (cs : List Byte) : groupValues (c :: cs) = [] := by
  rw [groupValues, h]

/-- The rest of a group, after the values `vs`, gives what its values complete (R150). -/
theorem decodeGroup_after (vs : List Value) (t : List Byte) :
    valueBytes vs ++ decodeGroup (restBits vs) (5 * vs.length % 8) t = valueBytes (vs ++ groupValues t) := by
  induction t generalizing vs with
  | nil => simp [decodeGroup, groupValues]
  | cons c cs ih =>
    rw [decodeGroup, groupValues]
    cases classify c with
    | value v =>
      obtain ⟨bs, hacc, hbytes⟩ := accumulate_restBits vs v
      simp only [hacc]
      rw [← List.append_assoc, ← hbytes, ih, List.append_assoc, List.singleton_append]
    | pad => simp
    | invalid => simp

/-- A group gives the whole bytes of its values (R157). -/
theorem decodeGroup_eq (t : List Byte) : decodeGroup 0 0 t = valueBytes (groupValues t) := decodeGroup_after [] t

theorem groupValues_map_fwdRom (vs : List Value) (t : List Byte) :
    groupValues (vs.map fwdRom ++ t) = vs ++ groupValues t := by
  induction vs with
  | nil => rfl
  | cons v vs ih =>
    rw [List.map_cons, List.cons_append, groupValues_cons_value (tableReadsUndoEachOther.1 v), ih, List.cons_append]

theorem classify_padCode : classify padCode = .pad := classify_eq_pad_iff_toNat.mpr rfl

theorem groupValues_replicate_padCode (n : Nat) : groupValues (List.replicate n padCode) = [] := by
  cases n with
  | zero => rfl
  | succ n => exact groupValues_cons_pad classify_padCode _

/-- Without an `INVALID` code, the values are those before the first `PAD` (R157). -/
theorem groupValues_length_of_valid {t : List Byte} (h : ∀ c ∈ t, classify c ≠ .invalid) :
    (groupValues t).length = (t.takeWhile fun c => classify c != .pad).length := by
  induction t with
  | nil => rfl
  | cons c cs ih =>
    obtain ⟨hc, hcs⟩ := List.forall_mem_cons.mp h
    rw [groupValues, List.takeWhile_cons]
    cases hclass : classify c with
    | value v => simp [ih hcs]
    | pad => rfl
    | invalid => exact absurd hclass hc

theorem groupValues_length_le (t : List Byte) : (groupValues t).length ≤ t.length := by
  induction t with
  | nil => exact le_rfl
  | cons c cs ih =>
    rw [groupValues]
    cases classify c with
    | value v => exact Nat.succ_le_succ ih
    | pad => exact Nat.zero_le _
    | invalid => exact Nat.zero_le _

/-- Settles O38: the number of the values is their concatenation, and its five bytes are the slices. -/
theorem fullGroupGivesFiveBytes : Obligations.FullGroupGivesFiveBytes := by
  intro v0 v1 v2 v3 v4 v5 v6 v7 w
  have hw : packValues [v0, v1, v2, v3, v4, v5, v6, v7] = w.toNat := by
    simp only [packValues, List.foldl_cons, List.foldl_nil, w, toNat_append_eq_add]
    omega
  have hvalues := groupValues_map_fwdRom [v0, v1, v2, v3, v4, v5, v6, v7] []
  rw [List.append_nil] at hvalues
  rw [decodeGroup_eq, hvalues, groupValues, List.append_nil, valueBytes, hw]
  simp [unpackBytes, BitVec.extractLsb', Nat.shiftRight_eq_div_pow, Nat.div_div_eq_div_mul]

/-! ### A text by groups (R153) -/

/-- Whole groups are decoded apart from what follows them. -/
theorem decodeGroups_append (t u : List Byte) (h : t.length % 8 = 0) :
    decodeGroups (t ++ u) = decodeGroups t ++ decodeGroups u := by
  induction t using groups_induction (k := 8) (by decide) with
  | short s hs =>
    obtain rfl : s = [] := List.eq_nil_of_length_eq_zero (by omega)
    rfl
  | group g s hg ih =>
    rw [List.length_append, hg, Nat.add_mod_left] at h
    simp only [decodeGroups] at ih ⊢
    rw [List.append_assoc, chunks_append (by decide) hg, chunks_append (by decide) hg, List.flatMap_cons,
      List.flatMap_cons, ih h, List.append_assoc]

/-- A text of at most one group. -/
theorem decodeGroups_of_length_le {t : List Byte} (h : t.length ≤ 8) : decodeGroups t = decodeGroup 0 0 t := by
  by_cases ht : t = []
  · rw [ht]
    rfl
  · rw [decodeGroups, chunks_of_length_le (by decide) ht h, List.flatMap_singleton]

theorem decodeGroups_group_append {g : List Byte} (hg : g.length = 8) (t : List Byte) :
    decodeGroups (g ++ t) = decodeGroup 0 0 g ++ decodeGroups t := by
  rw [decodeGroups_append g t (by rw [hg]), decodeGroups_of_length_le hg.le]

theorem chunks_flatten {k : Nat} (hk : 0 < k) (s : List Byte) : (chunks s k).flatten = s := by
  induction s using groups_induction hk with
  | short s hs =>
    by_cases h0 : s = []
    · rw [h0]
      rfl
    · rw [chunks_of_length_le hk h0 hs.le, List.flatten_singleton]
  | group g s hg ih => rw [chunks_append hk hg, List.flatten_cons, ih]

theorem mem_of_mem_chunks {k : Nat} (hk : 0 < k) {s g : List Byte} {c : Byte} (hg : g ∈ chunks s k) (hc : c ∈ g) :
    c ∈ s := by
  rw [← chunks_flatten hk s]
  exact List.mem_flatten_of_mem hg hc

/-- R54: five bytes for every eight codes are the most there can be. -/
theorem decodeGroups_length_le (t : List Byte) : (decodeGroups t).length ≤ 5 * t.length / 8 := by
  induction t using groups_induction (k := 8) (by decide) with
  | short s hs =>
    have := groupValues_length_le s
    rw [decodeGroups_of_length_le hs.le, decodeGroup_eq, valueBytes_length]
    omega
  | group g s hg ih =>
    have := groupValues_length_le g
    rw [decodeGroups_group_append hg, decodeGroup_eq, List.length_append, valueBytes_length, List.length_append]
    omega

/-- Settles O39: each group gives the whole bytes of its values. -/
theorem bytesPerGroup : Obligations.BytesPerGroup := by
  refine ⟨fun t ht => ?_, decodeGroups_length_le⟩
  have hgroup (g : List Byte) (hg : ∀ c ∈ g, classify c ≠ .invalid) :
      (decodeGroup 0 0 g).length = 5 * (g.takeWhile fun c => classify c != .pad).length / 8 := by
    rw [decodeGroup_eq, valueBytes_length, groupValues_length_of_valid hg]
  refine ⟨hgroup t ht, ?_⟩
  rw [decodeGroups, List.length_flatMap]
  exact congrArg List.sum (List.map_congr_left fun g hg => hgroup g fun c hc =>
    ht c (mem_of_mem_chunks (by decide) hg hc))

/-! ### Validation (R151, R204) -/

theorem firstInvalid_cons (n : Nat) (c : Byte) (t : List Byte) :
    firstInvalid n (c :: t) = if classify c = .invalid then some (n, c) else firstInvalid (n + 1) t := by
  rw [firstInvalid, isInvalid]
  simp only [beq_iff_eq]

/-- The code `c` at index `k` of `t` is the first that is `INVALID` (R204). -/
def FirstInvalidAt (t : List Byte) (k : Nat) (c : Byte) : Prop :=
  t[k]? = some c ∧ classify c = .invalid ∧ ∀ j x, j < k → t[j]? = some x → classify x ≠ .invalid

theorem firstInvalidAt_cons_of_invalid {d : Byte} (h : classify d = .invalid) {t : List Byte} {k : Nat} {c : Byte} :
    FirstInvalidAt (d :: t) k c ↔ k = 0 ∧ c = d := by
  constructor
  · rintro ⟨hget, -, hbefore⟩
    obtain rfl : k = 0 := Nat.eq_zero_of_not_pos fun hk => hbefore 0 d hk rfl h
    exact ⟨rfl, (Option.some.inj hget).symm⟩
  · rintro ⟨rfl, rfl⟩
    exact ⟨rfl, h, fun _ _ hj => absurd hj (Nat.not_lt_zero _)⟩

theorem firstInvalidAt_cons_of_valid {d : Byte} (h : classify d ≠ .invalid) {t : List Byte} {k : Nat} {c : Byte} :
    FirstInvalidAt (d :: t) k c ↔ ∃ m, k = m + 1 ∧ FirstInvalidAt t m c := by
  cases k with
  | zero => exact ⟨fun ⟨hget, hinv, _⟩ => absurd hinv (Option.some.inj hget ▸ h), fun ⟨_, hm, _⟩ => nomatch hm⟩
  | succ k =>
    constructor
    · rintro ⟨hget, hinv, hbefore⟩
      exact ⟨k, rfl, hget, hinv, fun j x hj => hbefore (j + 1) x (Nat.succ_lt_succ hj)⟩
    · rintro ⟨m, hm, hget, hinv, hbefore⟩
      obtain rfl := Nat.succ.inj hm
      refine ⟨hget, hinv, fun j x hj hx => ?_⟩
      cases j with
      | zero => exact Option.some.inj hx ▸ h
      | succ j => exact hbefore j x (Nat.lt_of_succ_lt_succ hj) hx

/-- The search, whose indices start at `n`, finds the first `INVALID` code. -/
theorem firstInvalid_eq_some_iff {n i : Nat} {c : Byte} {t : List Byte} :
    firstInvalid n t = some (i, c) ↔ ∃ k, i = n + k ∧ FirstInvalidAt t k c := by
  induction t generalizing n with
  | nil => simp [firstInvalid, FirstInvalidAt]
  | cons d t ih =>
    rw [firstInvalid_cons]
    split
    next h => simp [firstInvalidAt_cons_of_invalid h, eq_comm]
    next h => simp [firstInvalidAt_cons_of_valid h, ih, Nat.add_assoc, Nat.add_comm 1]

theorem firstInvalid_eq_none_iff {n : Nat} {t : List Byte} :
    firstInvalid n t = none ↔ ∀ c ∈ t, classify c ≠ .invalid := by
  induction t generalizing n with
  | nil => simp [firstInvalid]
  | cons c t ih =>
    rw [firstInvalid_cons, List.forall_mem_cons, ← ih (n := n + 1)]
    split
    next h => simp [h]
    next h => simp [h]

theorem base32Decode_eq_err_iff {t : List Byte} {k : Nat} {c : Byte} :
    base32Decode t = .err k c ↔ FirstInvalidAt t k c := by
  have hfirst : firstInvalid 0 t = some (k, c) ↔ FirstInvalidAt t k c := by simp [firstInvalid_eq_some_iff]
  rw [← hfirst, base32Decode]
  cases firstInvalid 0 t with
  | none => simp
  | some p => simp [Prod.ext_iff]

theorem base32Decode_eq_ok_iff {t out : List Byte} :
    base32Decode t = .ok out ↔ (∀ c ∈ t, classify c ≠ .invalid) ∧ decodeGroups t = out := by
  rw [base32Decode, ← firstInvalid_eq_none_iff (n := 0)]
  cases firstInvalid 0 t with
  | none => simp
  | some p => simp

/-- Settles O40: the search for an `INVALID` code is all of the validation. -/
theorem decodeFailsAtTheLowestInvalidIndex : Obligations.DecodeFailsAtTheLowestInvalidIndex := by
  intro t
  exact ⟨fun k c => base32Decode_eq_err_iff, by simp [base32Decode_eq_ok_iff]⟩

/-! ### Concatenation and case (R152, R166) -/

/-- What follows the first `INVALID` code does not count. -/
theorem FirstInvalidAt.append_left {t u : List Byte} {k : Nat} {c : Byte} (h : FirstInvalidAt t k c) :
    FirstInvalidAt (t ++ u) k c := by
  obtain ⟨hget, hinv, hbefore⟩ := h
  have hk : k < t.length := (List.getElem?_eq_some_iff.mp hget).1
  refine ⟨by rwa [List.getElem?_append_left hk], hinv, fun j x hj hx => ?_⟩
  rw [List.getElem?_append_left (hj.trans hk)] at hx
  exact hbefore j x hj hx

/-- A valid text in front moves the first `INVALID` code by its length. -/
theorem FirstInvalidAt.append_right {t u : List Byte} {k : Nat} {c : Byte} (ht : ∀ c ∈ t, classify c ≠ .invalid)
    (h : FirstInvalidAt u k c) : FirstInvalidAt (t ++ u) (t.length + k) c := by
  obtain ⟨hget, hinv, hbefore⟩ := h
  have hget' : (t ++ u)[t.length + k]? = some c := by
    rwa [List.getElem?_append_right (Nat.le_add_right _ _), Nat.add_sub_cancel_left]
  refine ⟨hget', hinv, fun j x hj hx => ?_⟩
  by_cases hjt : j < t.length
  · rw [List.getElem?_append_left hjt] at hx
    exact ht x (List.mem_of_getElem? hx)
  · rw [List.getElem?_append_right (Nat.le_of_not_lt hjt)] at hx
    exact hbefore _ x (by omega) hx

/-- Settles O44: whole groups are decoded apart, and the first `INVALID` code of the whole is that of a part. -/
theorem decodeOfConcatenation : Obligations.DecodeOfConcatenation := by
  intro t u ht
  refine ⟨fun x y hx hy => ?_, fun k c h => ?_, fun x k c hx h => ?_⟩
  · obtain ⟨hvt, rfl⟩ := base32Decode_eq_ok_iff.mp hx
    obtain ⟨hvu, rfl⟩ := base32Decode_eq_ok_iff.mp hy
    exact base32Decode_eq_ok_iff.mpr ⟨List.forall_mem_append.mpr ⟨hvt, hvu⟩, decodeGroups_append t u ht⟩
  · exact base32Decode_eq_err_iff.mpr (base32Decode_eq_err_iff.mp h).append_left
  · exact base32Decode_eq_err_iff.mpr ((base32Decode_eq_err_iff.mp h).append_right (base32Decode_eq_ok_iff.mp hx).1)

/-- `f` changes no class, and no code that is `INVALID`. -/
def KeepsClasses (f : Byte → Byte) : Prop :=
  ∀ c, classify (f c) = classify c ∧ (classify c = .invalid → f c = c)

section KeepsClasses

variable {f : Byte → Byte} (hf : KeepsClasses f)
include hf

theorem groupValues_map (t : List Byte) : groupValues (t.map f) = groupValues t := by
  induction t with
  | nil => rfl
  | cons c t ih => rw [List.map_cons, groupValues, groupValues, (hf c).1, ih]

theorem decodeGroups_map (t : List Byte) : decodeGroups (t.map f) = decodeGroups t := by
  induction t using groups_induction (k := 8) (by decide) with
  | short s hs =>
    rw [decodeGroups_of_length_le (by simpa using hs.le), decodeGroups_of_length_le hs.le, decodeGroup_eq,
      decodeGroup_eq, groupValues_map hf]
  | group g s hg ih =>
    rw [List.map_append, decodeGroups_group_append (by simpa using hg), decodeGroups_group_append hg, ih,
      decodeGroup_eq, decodeGroup_eq, groupValues_map hf]

theorem firstInvalid_map (n : Nat) (t : List Byte) : firstInvalid n (t.map f) = firstInvalid n t := by
  induction t generalizing n with
  | nil => rfl
  | cons c t ih =>
    obtain ⟨hclass, hinv⟩ := hf c
    rw [List.map_cons, firstInvalid_cons, firstInvalid_cons, hclass, ih]
    split
    next h => rw [hinv h]
    next => rfl

/-- Decoding sees the classes of the codes and nothing else of them, and an `INVALID` code as received. -/
theorem base32Decode_map (t : List Byte) : base32Decode (t.map f) = base32Decode t := by
  rw [base32Decode, base32Decode, firstInvalid_map hf, decodeGroups_map hf]

end KeepsClasses

/-- A letter of either case is not `INVALID` (R102). -/
theorem letter_not_invalid {c : Byte}
    (h : (0x41 ≤ c.toNat ∧ c.toNat ≤ 0x5A) ∨ (0x61 ≤ c.toNat ∧ c.toNat ≤ 0x7A)) : classify c ≠ .invalid := by
  have hmem : c.toNat ∈ symbolCodes := by
    simp only [symbolCodes, Finset.mem_union, Finset.mem_Icc]
    omega
  exact (value_iff_mem_symbolCodes.mpr hmem).1

theorem keepsClasses_fold : KeepsClasses fold := fun c =>
  ⟨(tableReadsUndoEachOther.2.1 c).symm, fun hc => fold_eq_self fun h => letter_not_invalid (.inr h) hc⟩

/-- R152: the lowercase form of a code. -/
def toLower (c : Byte) : Byte := if 0x41 ≤ c.toNat ∧ c.toNat ≤ 0x5A then c + 0x20 else c

/-- Folding undoes the change of a capital letter to lowercase. -/
theorem fold_toLower (c : Byte) : fold (toLower c) = fold c := by
  by_cases h : 0x41 ≤ c.toNat ∧ c.toNat ≤ 0x5A
  · have hlower : (c + 0x20).toNat = c.toNat + 0x20 := BitVec.toNat_add_of_lt (by simp; omega)
    rw [toLower, if_pos h, fold_of_lowercase (by omega), fold_eq_self (by omega), BitVec.add_sub_cancel]
  · rw [toLower, if_neg h]

theorem keepsClasses_toLower : KeepsClasses toLower := by
  refine fun c => ⟨?_, fun hc => if_neg fun h => letter_not_invalid (.inl h) hc⟩
  rw [tableReadsUndoEachOther.2.1, fold_toLower, ← tableReadsUndoEachOther.2.1]

/-- Settles O41: neither case mapping changes a class or touches an `INVALID` code. -/
theorem decodeIgnoresCase : Obligations.DecodeIgnoresCase :=
  fun t => ⟨base32Decode_map keepsClasses_fold t, base32Decode_map keepsClasses_toLower t⟩

/-! ### Decoding an encoding (R166, R167) -/

/-- The lanes of a number, packed again, are its low bits. -/
theorem packValues_lanes (w k : Nat) : packValues (lanes w (5 * k)) = w % 2 ^ (5 * k) := by
  induction k generalizing w with
  | zero => simp [lanes, packValues, Nat.mod_one]
  | succ k ih =>
    rw [Nat.mul_succ, lanes_add, lanes_five, packValues_concat, ih, BitVec.toNat_ofNat, Nat.shiftRight_eq_div_pow,
      Nat.add_comm (5 * k), Nat.pow_add, Nat.mod_mul, Nat.mul_comm, Nat.add_comm]

/-- The bits that fill up the last symbol make no byte (R126, R156). -/
theorem valueBytes_symbolValues (b : List Byte) : valueBytes (symbolValues b) = b := by
  obtain ⟨f, hf⟩ := Nat.exists_eq_add_of_le (le_groupSymbols b.length)
  have hfill : f < 5 := by
    unfold groupSymbols ceilDiv at hf
    omega
  have hlt : packBytes b <<< f < 2 ^ (5 * groupSymbols b.length) := by
    rw [hf, Nat.shiftLeft_eq, Nat.pow_add]
    exact Nat.mul_lt_mul_of_pos_right (packBytes_lt b) (Nat.two_pow_pos f)
  have hmod : 5 * groupSymbols b.length % 8 = f := by omega
  have hdiv : 5 * groupSymbols b.length / 8 = b.length := by omega
  rw [valueBytes, symbolValues_length, hmod, hdiv, symbolValues, packValues_lanes, Nat.sub_eq_of_eq_add' hf,
    Nat.mod_eq_of_lt hlt, Nat.shiftLeft_eq, Nat.mul_div_cancel _ (Nat.two_pow_pos f), unpackBytes_packBytes]

theorem decodeGroup_encodeGroup (g : List Byte) : decodeGroup 0 0 (encodeGroup g) = g := by
  rw [decodeGroup_eq, encodeGroup_eq, groupValues_map_fwdRom, groupValues_replicate_padCode, List.append_nil,
    valueBytes_symbolValues]

theorem encodeGroup_length {g : List Byte} (hg : g.length ≤ 5) : (encodeGroup g).length = 8 := by
  rw [encodeGroup_eq, List.length_append, List.length_map, symbolValues_length, List.length_replicate]
  unfold groupSymbols ceilDiv
  omega

theorem decodeGroups_base32Encode (b : List Byte) : decodeGroups (base32Encode b) = b := by
  induction b using groups_induction (k := 5) (by decide) with
  | short s hs =>
    by_cases h0 : s = []
    · rw [h0]
      rfl
    · rw [base32Encode, chunks_of_length_le (by decide) h0 hs.le, List.flatMap_singleton,
        decodeGroups_of_length_le (encodeGroup_length hs.le).le, decodeGroup_encodeGroup]
  | group g s hg ih =>
    rw [base32Encode_group_append hg, decodeGroups_group_append (encodeGroup_length hg.le), decodeGroup_encodeGroup,
      ih]

/-- An encoding holds symbols of the table and `PAD` only (R126). -/
theorem mem_base32Encode {b : List Byte} {c : Byte} (hc : c ∈ base32Encode b) : c = padCode ∨ ∃ v, c = fwdRom v := by
  rw [base32Encode_eq] at hc
  obtain hc | hc := List.mem_append.mp hc
  · obtain ⟨v, -, rfl⟩ := List.mem_map.mp hc
    exact .inr ⟨v, rfl⟩
  · exact .inl (List.eq_of_mem_replicate hc)

/-- Settles O42: an encoding is valid, and each of its groups gives back its bytes. -/
theorem decodeOfEncodeIsTheInput : Obligations.DecodeOfEncodeIsTheInput := by
  refine fun b => base32Decode_eq_ok_iff.mpr ⟨fun c hc => ?_, decodeGroups_base32Encode b⟩
  obtain rfl | ⟨v, rfl⟩ := mem_base32Encode hc
  · simp [classify_padCode]
  · simp [tableReadsUndoEachOther.1 v]

theorem map_fold_base32Encode (b : List Byte) : (base32Encode b).map fold = base32Encode b := by
  refine (List.map_congr_left fun c hc => ?_).trans (List.map_id _)
  obtain rfl | ⟨v, rfl⟩ := mem_base32Encode hc
  · rfl
  · exact fold_eq_self (fwdRom_not_lowercase v)

/-- Settles O43: folding changes neither the result nor an encoding. -/
theorem canonicalTextReencodes : Obligations.CanonicalTextReencodes := by
  intro t b h
  rw [map_fold_base32Encode] at h
  refine ⟨?_, h.symm⟩
  rw [← base32Decode_map keepsClasses_fold, h]
  exact decodeOfEncodeIsTheInput b

/-- Padding alone gives no byte, however long it is (R167). -/
theorem base32Decode_replicate_padCode (n : Nat) : base32Decode (List.replicate n padCode) = .ok [] := by
  refine base32Decode_eq_ok_iff.mpr ⟨fun c hc => ?_, List.flatMap_eq_nil_iff.mpr fun g hg => ?_⟩
  · simp [List.eq_of_mem_replicate hc, classify_padCode]
  · have hpads : g = List.replicate g.length padCode :=
      List.eq_replicate_of_mem fun c hc => List.eq_of_mem_replicate (mem_of_mem_chunks (by decide) hg hc)
    rw [decodeGroup_eq, hpads, groupValues_replicate_padCode]
    rfl

/-- Settles O45: the listed texts are decoded as they stand, and each group of padding has no value. -/
theorem decoderCornerCases : Obligations.DecoderCornerCases :=
  ⟨by decide, base32Decode_replicate_padCode, by decide, by decide, by decide, by decide, by decide⟩

end Sys2Proof.Machine

/-!
PROOFS. The steps of `DEC`: validation and decoding in numbers, and the command from issue to completion, which follows
the text by its groups (42_decoder.md R161 to R165).
-/

namespace Sys2Proof.Machine

/-! ### One step (R161 to R164) -/

section Enabled

variable {e : Engine}

/-- A step of validation is enabled while a character is left (R161). -/
theorem decStep_of_dchkChar {c : Byte} (hs : e.state = .dchk) (hi : e.i < e.n) (hc : e.input[e.i]? = some c) :
    e.decStep = .next (Progress.clean (e.dchkChar c)) := by
  simp only [Engine.decStep, hs, if_pos hi, readIn_eq_some.mpr ⟨hi, hc⟩]

/-- The end step of validation is enabled when no character is left (R162). -/
theorem decStep_of_dchkEnd (hs : e.state = .dchk) (hi : e.i = e.n) :
    e.decStep = .next (Progress.clean e.dchkEnd) := by
  simp only [Engine.decStep, hs, hi, lt_irrefl, if_false, if_true]

/-- A step of decoding is enabled while a character is left (R163). -/
theorem decStep_of_decChar {c : Byte} (hs : e.state = .dec) (hi : e.i < e.n) (hc : e.input[e.i]? = some c) :
    e.decStep = .next (e.decChar c) := by
  simp only [Engine.decStep, hs, if_pos hi, readIn_eq_some.mpr ⟨hi, hc⟩]

/-- The end step of decoding is enabled when no character is left (R164). -/
theorem decStep_of_decEnd (hs : e.state = .dec) (hi : e.i = e.n) :
    e.decStep = .next (Progress.clean e.completeOk) := by
  simp only [Engine.decStep, hs, hi, lt_irrefl, if_false, if_true]

/-- A step of decoding whose character meets no model fault ends as every such step does (R163). -/
theorem decChar_of_clean {c : Byte} {x : Engine} (h : e.decAccept c = Progress.clean x) :
    e.decChar c = Progress.clean x.decAdvance := by
  rw [Engine.decChar, h]
  rfl

theorem decAccept_of_stop (h : e.stop = true) (c : Byte) : e.decAccept c = Progress.clean e := by
  rw [Engine.decAccept, if_pos h]

theorem decAccept_of_pad {c : Byte} (h : e.stop = false) (hc : classify c = .pad) :
    e.decAccept c = Progress.clean { e with stop := true } := by
  simp only [Engine.decAccept, h, hc, Bool.false_eq_true, if_false]

theorem decAccept_of_value {c : Byte} {v : Value} (h : e.stop = false) (hc : classify c = .value v) {bs : List Byte}
    {acc nb : Nat} (hv : accumulate e.acc.toNat e.nb.toNat v = (bs, acc, nb)) :
    e.decAccept c =
      Progress.clean { e with out := e.out ++ bs, acc := BitVec.ofNat 7 acc, nb := BitVec.ofNat 3 nb } := by
  rw [Engine.decAccept, if_neg (by simp [h])]
  simp only [hc, hv]
  rfl

theorem decAccept_of_invalid {c : Byte} (h : e.stop = false) (hc : classify c = .invalid) :
    e.decAccept c = ⟨e, [.invalidInDec]⟩ := by
  simp only [Engine.decAccept, h, hc, Bool.false_eq_true, if_false]

end Enabled

/-- Settles O18: validation raises the error or goes on, and its end step clears the registers of the decoding pass. -/
theorem decValidatesThenStartsDecoding : Obligations.DecValidatesThenStartsDecoding := by
  intro s e hturn hs
  refine ⟨fun c hi hc hinv => ?_, fun c hi hc hvalid => ?_, fun hi => ?_⟩
  · rw [exec_of_clean (i := .dec) hturn (decStep_of_dchkChar hs hi hc), dchkChar_eq, if_pos hinv]
    rfl
  · rw [exec_of_clean (i := .dec) hturn (decStep_of_dchkChar hs hi hc), dchkChar_eq, if_neg hvalid]
  · exact exec_of_clean (i := .dec) hturn (decStep_of_dchkEnd hs hi)

/-- Settles O19: the four cases of the rule make `x` of the engine, and the last lines advance it. -/
theorem decStepAccumulatesWithinTheGroup : Obligations.DecStepAccumulatesWithinTheGroup := by
  intro s e c hturn hs hi hc x hx
  have haccept : e.decAccept c = Progress.clean x ∧ x.i = e.i ∧ x.g = e.g := by
    obtain ⟨hstop, rfl⟩ | ⟨hstop, hpad, rfl⟩ | ⟨v, hstop, hv, hnb, rfl⟩ | ⟨v, hstop, hv, hnb, rfl⟩ := hx
    · exact ⟨decAccept_of_stop hstop c, rfl, rfl⟩
    · exact ⟨decAccept_of_pad hstop hpad, rfl, rfl⟩
    · have haccum := accumulate_eq e.acc.toNat e.nb.toNat v
      rw [if_neg (Nat.not_le_of_lt hnb)] at haccum
      exact ⟨by rw [decAccept_of_value hstop hv haccum, List.append_nil], rfl, rfl⟩
    · have haccum := accumulate_eq e.acc.toNat e.nb.toNat v
      rw [if_pos hnb] at haccum
      exact ⟨decAccept_of_value hstop hv haccum, rfl, rfl⟩
  obtain ⟨hclean, hxi, hxg⟩ := haccept
  have hstep : engineStep .dec e = .next (Progress.clean x.decAdvance) :=
    (decStep_of_decChar hs hi hc).trans (congrArg _ (decChar_of_clean hclean))
  rw [exec_of_clean (i := .dec) hturn hstep, decAdvance_eq, hxi, hxg]

/-- Settles O20: the mark is recorded and the step goes on to its last lines. -/
theorem decStepOnInvalidRecordsAFault : Obligations.DecStepOnInvalidRecordsAFault := by
  intro s e c hturn hs hi hc hstop hinv
  have hstep : engineStep .dec e = .next ⟨e.decAdvance, [.invalidInDec]⟩ := by
    refine (decStep_of_decChar hs hi hc).trans ?_
    rw [Engine.decChar, decAccept_of_invalid hstop hinv]
  have hstate : e.decAdvance.i = e.i + 1 ∧ e.decAdvance.state = e.state := by
    rw [decAdvance_eq]
    split
    · exact ⟨rfl, rfl⟩
    · exact ⟨rfl, rfl⟩
  obtain ⟨hi', hs'⟩ := hstate
  have hexec := (exec_eq_advance .dec s).trans (advance_of_next hturn.1 (hturn.decode_word (i := .dec)) hstep)
  exact ⟨_, e.decAdvance, hexec, rfl, rfl, hi', decAdvance_out e, hs'.trans hs⟩

/-- Settles O21: the end step is `complete_ok()`. -/
theorem decEndStepCompletes : Obligations.DecEndStepCompletes :=
  fun _ _ hturn hs hi => exec_of_clean (i := .dec) hturn (decStep_of_decEnd hs hi)

/-! ### The engine within a group (R153 to R156, R163) -/

/-- A group has ended when one of its codes is no value (R154). -/
def groupStopped (q : List Byte) : Bool := decide ((groupValues q).length < q.length)

theorem groupStopped_eq_true_iff {q : List Byte} : groupStopped q = true ↔ (groupValues q).length < q.length :=
  decide_eq_true_iff

theorem groupStopped_eq_false_iff {q : List Byte} : groupStopped q = false ↔ (groupValues q).length = q.length := by
  have := groupValues_length_le q
  rw [groupStopped, decide_eq_false_iff_not]
  omega

theorem groupStopped_cons_value {c : Byte} {v : Value} (h : classify c = .value v) (q : List Byte) :
    groupStopped (c :: q) = groupStopped q := by
  simp only [groupStopped, groupValues_cons_value h, List.length_cons, Nat.add_lt_add_iff_right]

theorem groupStopped_cons_pad {c : Byte} (h : classify c = .pad) (q : List Byte) : groupStopped (c :: q) = true := by
  simp [groupStopped, groupValues_cons_pad h]

/-- Nothing after the end of a group counts (R154). -/
theorem append_of_stopped {q : List Byte} (h : groupStopped q = true) (t : List Byte) :
    groupValues (q ++ t) = groupValues q ∧ groupStopped (q ++ t) = true := by
  have hvalues : groupValues (q ++ t) = groupValues q := by
    induction q with
    | nil => cases h
    | cons c q ih =>
      rw [List.cons_append, groupValues, groupValues]
      cases hclass : classify c with
      | value v => rw [ih (groupStopped_cons_value hclass q ▸ h)]
      | pad => rfl
      | invalid => rfl
  rw [groupStopped_eq_true_iff] at h
  rw [groupStopped_eq_true_iff, hvalues, List.length_append]
  exact ⟨rfl, by omega⟩

/-- A group that has not ended goes on with the codes after it. -/
theorem append_of_going {q : List Byte} (h : groupStopped q = false) (t : List Byte) :
    groupValues (q ++ t) = groupValues q ++ groupValues t ∧ groupStopped (q ++ t) = groupStopped t := by
  induction q with
  | nil => exact ⟨rfl, rfl⟩
  | cons c q ih =>
    cases hclass : classify c with
    | value v =>
      obtain ⟨hvalues, hstop⟩ := ih (groupStopped_cons_value hclass q ▸ h)
      rw [List.cons_append, groupValues_cons_value hclass, groupValues_cons_value hclass,
        groupStopped_cons_value hclass, hvalues, List.cons_append]
      exact ⟨rfl, hstop⟩
    | pad => simp [groupStopped, groupValues, hclass] at h
    | invalid => simp [groupStopped, groupValues, hclass] at h

/-- The engine `e` in a group of which it has read the codes `q`: the bits of their values that make no whole byte are
pending, and `out` is in `OUT`. -/
def Engine.inGroup (e : Engine) (q out : List Byte) : Engine :=
  { e with
    acc := BitVec.ofNat 7 (restBits (groupValues q))
    nb := BitVec.ofNat 3 (5 * (groupValues q).length % 8)
    stop := groupStopped q
    out := out }

section InGroup

variable (e : Engine) (q out : List Byte)

theorem inGroup_nb_toNat : (e.inGroup q out).nb.toNat = 5 * (groupValues q).length % 8 :=
  Nat.mod_eq_of_lt (by omega)

theorem inGroup_acc_toNat : (e.inGroup q out).acc.toNat = restBits (groupValues q) := by
  have hle : 2 ^ (5 * (groupValues q).length % 8) ≤ 2 ^ 7 := Nat.pow_le_pow_right (by decide) (by omega)
  exact Nat.mod_eq_of_lt ((restBits_lt _).trans_le hle)

theorem inGroup_accOk : (e.inGroup q out).accOk = true := by
  rw [Engine.accOk, inGroup_acc_toNat, inGroup_nb_toNat]
  exact decide_eq_true (restBits_lt _)

/-- A character goes into the group as the function takes it, and the bytes it completes go to `OUT` (R163). -/
theorem decAccept_inGroup {c : Byte} (hc : classify c ≠ .invalid) :
    ∃ bs, decodeGroup 0 0 (q ++ [c]) = decodeGroup 0 0 q ++ bs ∧
      (e.inGroup q out).decAccept c = Progress.clean (e.inGroup (q ++ [c]) (out ++ bs)) := by
  rw [decodeGroup_eq, decodeGroup_eq]
  cases hstop : groupStopped q with
  | true =>
    obtain ⟨hvalues, hstop'⟩ := append_of_stopped hstop [c]
    refine ⟨[], by rw [hvalues, List.append_nil], ?_⟩
    rw [decAccept_of_stop (by exact hstop)]
    simp only [Engine.inGroup, hvalues, hstop, hstop', List.append_nil]
  | false =>
    obtain ⟨hvalues, hstop'⟩ := append_of_going hstop [c]
    cases hclass : classify c with
    | value v =>
      rw [groupValues_cons_value hclass] at hvalues
      rw [groupStopped_cons_value hclass] at hstop'
      obtain ⟨bs, haccum, hbytes⟩ := accumulate_restBits (groupValues q) v
      refine ⟨bs, hvalues ▸ hbytes, ?_⟩
      rw [← inGroup_acc_toNat e q out, ← inGroup_nb_toNat e q out] at haccum
      rw [decAccept_of_value (by exact hstop) hclass haccum]
      simp only [Engine.inGroup, hvalues, hstop, hstop']
      rfl
    | pad =>
      rw [groupValues_cons_pad hclass, List.append_nil] at hvalues
      rw [groupStopped_cons_pad hclass] at hstop'
      refine ⟨[], by rw [hvalues, List.append_nil], ?_⟩
      rw [decAccept_of_pad (by exact hstop) hclass]
      simp only [Engine.inGroup, hvalues, hstop', List.append_nil]
    | invalid => exact absurd hclass hc

end InGroup

/-- The engine `e` in the decoding pass of `DEC` at the character with index `j`. -/
def Engine.decodingAt (e : Engine) (j : Nat) : Engine :=
  { e with state := .dec, i := j, g := BitVec.ofNat 3 (j % 8) }

theorem decodingAt_g_toNat (e : Engine) (j : Nat) : (e.decodingAt j).g.toNat = j % 8 := Nat.mod_eq_of_lt (by omega)

/-- The cursor advances, and a group boundary starts a new group (R163). -/
theorem decAdvance_inGroup (e : Engine) (j : Nat) (q out : List Byte) :
    ((e.decodingAt j).inGroup q out).decAdvance =
      (e.decodingAt (j + 1)).inGroup (if j % 8 = 7 then [] else q) out := by
  have hg : ((e.decodingAt j).inGroup q out).g.toNat = j % 8 := decodingAt_g_toNat e j
  rw [decAdvance_eq, hg]
  split
  next h =>
    have hnext : (j + 1) % 8 = 0 := by omega
    simp only [Engine.decodingAt, hnext]
    rfl
  next h =>
    have hnext : (j + 1) % 8 = j % 8 + 1 := by omega
    simp only [Engine.decodingAt, hnext]
    rfl

/-- The codes of `p` after its whole groups. -/
def lastGroup (p : List Byte) : List Byte := p.drop (8 * (p.length / 8))

@[simp] theorem lastGroup_length (p : List Byte) : (lastGroup p).length = p.length % 8 := by
  rw [lastGroup, List.length_drop]
  omega

/-- The whole groups of `p` are decoded apart from the codes after them. -/
theorem decodeGroups_append_lastGroup (p : List Byte) {u : List Byte} (hu : (lastGroup p ++ u).length ≤ 8) :
    decodeGroups (p ++ u) = decodeGroups (p.take (8 * (p.length / 8))) ++ decodeGroup 0 0 (lastGroup p ++ u) := by
  have hwhole : (p.take (8 * (p.length / 8))).length % 8 = 0 := by
    rw [List.length_take]
    omega
  rw [← decodeGroups_of_length_le hu, ← decodeGroups_append _ _ hwhole, lastGroup, ← List.append_assoc,
    List.take_append_drop]

/-- The bytes that a code completes in its group are those it completes in the text. -/
theorem decodeGroups_concat {p bs : List Byte} {c : Byte}
    (h : decodeGroup 0 0 (lastGroup p ++ [c]) = decodeGroup 0 0 (lastGroup p) ++ bs) :
    decodeGroups (p ++ [c]) = decodeGroups p ++ bs := by
  have hp := decodeGroups_append_lastGroup p (u := []) (by rw [List.append_nil, lastGroup_length]; omega)
  rw [List.append_nil, List.append_nil] at hp
  rw [decodeGroups_append_lastGroup p (by rw [List.length_append, lastGroup_length, List.length_singleton]; omega), h,
    hp, List.append_assoc]

theorem lastGroup_concat (p : List Byte) (c : Byte) :
    lastGroup (p ++ [c]) = if p.length % 8 = 7 then [] else lastGroup p ++ [c] := by
  rw [lastGroup, List.length_append, List.length_singleton]
  split
  next h => exact List.drop_eq_nil_of_le (by rw [List.length_append, List.length_singleton]; omega)
  next h =>
    have hdiv : (p.length + 1) / 8 = p.length / 8 := by omega
    rw [hdiv, List.drop_append_of_le_length (by omega), lastGroup]

/-- The engine `e` in the decoding pass of `DEC` after the characters `p`. -/
def Engine.afterChars (e : Engine) (p : List Byte) : Engine :=
  (e.decodingAt p.length).inGroup (lastGroup p) (decodeGroups p)

/-- A step of decoding goes on with the next character (R163). -/
theorem decChar_afterChars (e : Engine) (p : List Byte) {c : Byte} (hc : classify c ≠ .invalid) :
    (e.afterChars p).decChar c = Progress.clean (e.afterChars (p ++ [c])) := by
  obtain ⟨bs, hbytes, haccept⟩ := decAccept_inGroup (e.decodingAt p.length) (lastGroup p) (decodeGroups p) hc
  rw [Engine.afterChars, decChar_of_clean haccept, decAdvance_inGroup, ← decodeGroups_concat hbytes,
    ← lastGroup_concat, Engine.afterChars, List.length_append, List.length_singleton]

/-- After each step of decoding the engine meets the invariants between steps (R35). -/
theorem afterChars_betweenStepsOk (e : Engine) (p : List Byte) : (e.afterChars p).betweenStepsOk = true := by
  have hstate : (e.afterChars p).state = .dec := rfl
  have hacc : (e.afterChars p).accOk = true := inGroup_accOk _ _ _
  simp only [Engine.betweenStepsOk, hstate, hacc, Bool.true_and, Bool.or_eq_true, decide_eq_true_iff]
  cases hstop : groupStopped (lastGroup p) with
  | true => exact .inl hstop
  | false =>
    have hlen := groupStopped_eq_false_iff.mp hstop
    have hnb : (e.afterChars p).nb.toNat = _ := inGroup_nb_toNat _ _ _
    have hg : (e.afterChars p).g.toNat = _ := decodingAt_g_toNat e _
    rw [hnb, hg, hlen, lastGroup_length]
    exact .inr rfl

/-! ### Runs of one command -/

/-- A turn of the engine `e`, at work on `i`, makes it `f`, without a model fault (R239, R208). -/
def Engine.Turn (i : Instr) (e f : Engine) : Prop :=
  e.state ≠ .idle ∧ decode e.word = .ok i ∧ engineStep i e = .next (Progress.clean f) ∧ f.betweenStepsOk = true

/-- So many turns in a row. -/
inductive Engine.Turns (i : Instr) : Nat → Engine → Engine → Prop
  | none (e : Engine) : Engine.Turns i 0 e e
  | cons {m : Nat} {e f g : Engine} (h : e.Turn i f) (hs : Engine.Turns i m f g) : Engine.Turns i (m + 1) e g

theorem Engine.Turns.append {i : Instr} {m n : Nat} {e f g : Engine} (h : Engine.Turns i m e f)
    (h' : Engine.Turns i n f g) : Engine.Turns i (m + n) e g := by
  induction h with
  | none e => rwa [Nat.zero_add]
  | cons hturn _ ih =>
    rw [Nat.add_right_comm]
    exact .cons hturn (ih h')

theorem Engine.Turns.concat {i : Instr} {m : Nat} {e f g : Engine} (h : Engine.Turns i m e f) (h' : f.Turn i g) :
    Engine.Turns i (m + 1) e g := h.append (.cons h' (.none g))

theorem turns_of_forall_turn {i : Instr} (f : Nat → Engine) {m : Nat} (h : ∀ j < m, (f j).Turn i (f (j + 1))) :
    Engine.Turns i m (f 0) (f m) := by
  induction m with
  | zero => exact .none _
  | succ m ih => exact (ih fun j hj => h j (hj.trans m.lt_succ_self)).concat (h m m.lt_succ_self)

/-- The turns of an engine, as the next items of the agenda. -/
theorem run_turns {i : Instr} {m k : Nat} {e f : Engine} (h : Engine.Turns i m e f) {rest : List Event} {s : State}
    (he : s.engines[k]? = some e) (hag : s.agenda = List.replicate m (.run k) ++ rest) :
    ∃ turn, core.run m s = .next { s with agenda := rest, turn := turn, engines := s.engines.set k f } := by
  induction h generalizing s with
  | none e => exact ⟨s.turn, congrArg _ (by rw [set_of_getElem? he, ← show s.agenda = rest from hag])⟩
  | @cons m e f g hturn _ ih =>
    obtain ⟨hs, hw, hstep, hok⟩ := hturn
    have hlen : k < s.engines.length := (List.getElem?_eq_some_iff.mp he).1
    obtain ⟨turn, hrun⟩ := ih (s := { s with agenda := _, turn := k, engines := _ }) (List.getElem?_set_self hlen) rfl
    rw [List.set_set] at hrun
    exact ⟨turn, (run_succ_eq_next core).mpr ⟨_, step_run_of_clean hag he hs hw hstep hok, hrun⟩⟩

/-- A command that is issued to an idle engine and takes `m + 1` turns: it is busy before the last of them. -/
theorem run_command {i : Instr} {d : List Byte} {m k : Nat} {e g f : Engine} {rest : List Event} {s : State}
    (hag : s.agenda = .issue k (encode i) d :: (List.replicate (m + 1) (.run k) ++ rest))
    (he : s.engines[k]? = some e) (hs : e.state = .idle) (hd : Command.wellFormed s.config ⟨i, d⟩ = true)
    (hturns : Engine.Turns i m (e.capture (encode i) ⟨i, d⟩) g) (hlast : g.Turn i f) :
    (∃ t g, core.run (m + 1) s = .next t ∧ t.engines[k]? = some g ∧ g.busy = true) ∧
      core.run (m + 2) s = .next { s with agenda := rest, turn := k, engines := s.engines.set k f } := by
  have hlen : k < s.engines.length := (List.getElem?_eq_some_iff.mp he).1
  rw [List.replicate_succ', List.append_assoc] at hag
  have hissue := step_issue_encode hag he hs hd
  obtain ⟨turn, hrun⟩ := run_turns hturns (s := { s with agenda := _, engines := _ }) (List.getElem?_set_self hlen) rfl
  rw [List.set_set] at hrun
  have hbusy := (run_succ_eq_next core).mpr ⟨_, hissue, hrun⟩
  obtain ⟨hgs, hgw, hgstep, hfok⟩ := hlast
  have hend := step_run_of_clean (s := { s with agenda := .run k :: rest, turn := turn, engines := _ }) rfl
    (List.getElem?_set_self hlen) hgs hgw hgstep hfok
  rw [List.set_set] at hend
  exact ⟨⟨_, _, hbusy, List.getElem?_set_self hlen, busy_eq_true_iff.mpr hgs⟩,
    (run_add_of_next hbusy 1).trans ((run_succ_eq_next core).mpr ⟨_, hend, rfl⟩)⟩

/-! ### `DEC` from issue to completion (R165) -/

section Command

variable (e : Engine) (d : List Byte)

/-- The engine that has just captured `DEC` with the text `d`. -/
def Engine.issuedDec : Engine := e.capture (encode .dec) ⟨.dec, d⟩

theorem issuedDec_word : decode (e.issuedDec d).word = .ok .dec :=
  (congrArg decode (capture_word e (decode_encode .dec))).trans (decode_encode .dec)

/-- The same engine after the validation of `j` characters. -/
def Engine.validated (j : Nat) : Engine := { e.issuedDec d with i := j }

theorem validated_betweenStepsOk {j : Nat} (h : ∀ c ∈ d.take j, classify c ≠ .invalid) :
    (e.validated d j).betweenStepsOk = true := by
  have hvalid : (d.take j).all (fun c => !isInvalid c) = true :=
    List.all_eq_true.mpr fun c hc => by simp [isInvalid, h c hc]
  exact hvalid

/-- A character that is not `INVALID` is passed (R161). -/
theorem validated_turn {j : Nat} (hj : j < d.length) (h : ∀ c ∈ d.take (j + 1), classify c ≠ .invalid) :
    (e.validated d j).Turn .dec (e.validated d (j + 1)) := by
  have hmem : d[j] ∈ d.take (j + 1) := List.mem_take_iff_getElem.mpr ⟨j, by omega, rfl⟩
  refine ⟨nofun, issuedDec_word e d, ?_, validated_betweenStepsOk e d h⟩
  refine (decStep_of_dchkChar (e := e.validated d j) rfl hj (List.getElem?_eq_getElem hj)).trans ?_
  rw [dchkChar_eq, if_neg (h _ hmem)]
  rfl

theorem validated_turns {m : Nat} (hm : m ≤ d.length) (h : ∀ c ∈ d.take m, classify c ≠ .invalid) :
    Engine.Turns .dec m (e.issuedDec d) (e.validated d m) :=
  turns_of_forall_turn (e.validated d) fun _ hj => validated_turn e d (Nat.lt_of_lt_of_le hj hm) fun c hc =>
    h c (List.take_subset_take_left d hj hc)

/-- An `INVALID` character ends the command (R161, R203). -/
theorem validated_turn_of_invalid {j : Nat} {c : Byte} (hc : d[j]? = some c) (hinv : classify c = .invalid) :
    (e.validated d j).Turn .dec ((e.validated d j).raiseInvalidCharacter j c) := by
  refine ⟨nofun, issuedDec_word e d, ?_, rfl⟩
  refine (decStep_of_dchkChar (e := e.validated d j) rfl (List.getElem?_eq_some_iff.mp hc).1 hc).trans ?_
  rw [dchkChar_eq, if_pos hinv]
  rfl

/-- The end of validation starts the decoding pass before the first character (R162). -/
theorem validated_endTurn : (e.validated d d.length).Turn .dec ((e.issuedDec d).afterChars []) :=
  ⟨nofun, issuedDec_word e d, decStep_of_dchkEnd (e := e.validated d _) rfl rfl, afterChars_betweenStepsOk _ _⟩

/-- A character of a valid text takes one turn of the decoding pass (R163). -/
theorem afterChars_turn {j : Nat} (hj : j < d.length) (h : classify d[j] ≠ .invalid) :
    ((e.issuedDec d).afterChars (d.take j)).Turn .dec ((e.issuedDec d).afterChars (d.take (j + 1))) := by
  have hlen : (d.take j).length = j := List.length_take_of_le hj.le
  have hget : d[(d.take j).length]? = some d[j] := by rw [hlen, List.getElem?_eq_getElem hj]
  refine ⟨nofun, issuedDec_word e d, ?_, afterChars_betweenStepsOk _ _⟩
  refine (decStep_of_decChar (e := (e.issuedDec d).afterChars (d.take j)) rfl (hlen.trans_lt hj) hget).trans ?_
  rw [decChar_afterChars _ _ h, List.take_append_getElem hj]

theorem afterChars_turns (h : ∀ c ∈ d, classify c ≠ .invalid) :
    Engine.Turns .dec d.length ((e.issuedDec d).afterChars []) ((e.issuedDec d).afterChars d) := by
  have hturns := turns_of_forall_turn (fun j => (e.issuedDec d).afterChars (d.take j)) fun j hj =>
    afterChars_turn e d hj (h _ (List.getElem_mem hj))
  rwa [List.take_length] at hturns

/-- The end step of decoding completes the command (R164). -/
theorem afterChars_endTurn :
    ((e.issuedDec d).afterChars d).Turn .dec ((e.issuedDec d).afterChars d).completeOk :=
  ⟨nofun, issuedDec_word e d, decStep_of_decEnd (e := (e.issuedDec d).afterChars d) rfl rfl, rfl⟩

end Command

/-- Settles O47: the turns of a text that decodes are those of its two passes with their end steps, and a text that does
not decode ends at its first `INVALID` code. -/
theorem decCommandComputesDecode : Obligations.DecCommandComputesDecode := by
  intro s k e d rest he hs hfits
  refine ⟨fun out hout hag => ?_, fun j c herr hag => ?_⟩
  · obtain ⟨hvalid, rfl⟩ := base32Decode_eq_ok_iff.mp hout
    have hturns := ((validated_turns e d le_rfl fun c hc => hvalid c (List.mem_of_mem_take hc)).concat
      (validated_endTurn e d)).append (afterChars_turns e d hvalid)
    have hcount : d.length + 1 + d.length = 2 * d.length + 1 := by omega
    obtain ⟨hbusy, hrun⟩ := run_command (i := .dec) hag he hs hfits (hcount ▸ hturns) (afterChars_endTurn e d)
    refine ⟨hbusy, _, hrun, rfl, rfl, ?_, rfl, rfl, rfl, rfl⟩
    have hop : ((e.issuedDec d).afterChars d).lastop = 2 := opField_encode .dec
    rw [completeOk_status, hop]
    rfl
  · obtain ⟨hget, hinv, hbefore⟩ := base32Decode_eq_err_iff.mp herr
    have hvalid : ∀ x ∈ d.take j, classify x ≠ .invalid := by
      intro x hx
      obtain ⟨m, hm, rfl⟩ := List.mem_take_iff_getElem.mp hx
      exact hbefore m _ (by omega) (List.getElem?_eq_getElem _)
    have hturns := validated_turns e d (List.getElem?_eq_some_iff.mp hget).1.le hvalid
    obtain ⟨hbusy, hrun⟩ := run_command (i := .dec) hag he hs hfits hturns (validated_turn_of_invalid e d hget hinv)
    refine ⟨hbusy, _, hrun, rfl, rfl, ?_, rfl, rfl, rfl⟩
    have hop : (e.validated d j).lastop = 2 := opField_encode .dec
    rw [raiseInvalidCharacter_status, hop]
    rfl

end Sys2Proof.Machine

/-!
PROOFS. What a step can record and stop with (60_exceptions.md): marks and replies are only added, an item touches no
engine it does not concern, and under the invariant no model fault of R208 occurs and an engine always has its step.
-/

namespace Sys2Proof.Machine

open Host (Outcome)

/-! ### Marks, replies and the other engines (R207, R208, R211) -/

/-- An item only adds to the marks and the replies, and does not write the parameters. -/
theorem perform_records_prefix {s t : State} {ev : Event} (h : s.perform ev = .next t) :
    s.refusals <+: t.refusals ∧ s.faults <+: t.faults ∧ s.replies <+: t.replies ∧ t.config = s.config := by
  obtain ⟨-, rfl⟩ | ⟨_, _, x, -, he, hx⟩ := perform_next h
  · exact ⟨List.prefix_rfl, List.prefix_rfl, List.prefix_rfl, rfl⟩
  · obtain ⟨turn, hturn⟩ := hx s rfl he
    cases h.symm.trans hturn
    exact ⟨List.prefix_append _ _, List.prefix_append _ _, List.prefix_append _ _, rfl⟩

/-- Settles O54: a step performs the first item of the agenda, or the turn of a busy engine, which is an item too. -/
theorem marksAreNeverCleared : Obligations.MarksAreNeverCleared := by
  intro s t h
  obtain ⟨ev, rest, -, hev⟩ | ⟨k, -, -, hrun⟩ := step_next h
  · exact perform_records_prefix (s := { s with agenda := rest }) hev
  · exact perform_records_prefix (ev := .run k) hrun

/-- Settles O58: the engine is part of what concerns it, which the item leaves alone. -/
theorem enginesArePrivate : Obligations.EnginesArePrivate := by
  intro s t ev rest k hag hk h
  rw [step_of_agenda hag] at h
  exact congrArg EngineView.engine (perform_view_of_not_concerns h hk)

/-! ### The turn of an engine under the invariant (R208, R239) -/

section Turn

variable {c : Config} {e : Engine}

/-- The invariant of a reachable state contains what the check between steps asks (R35). -/
theorem Engine.Inv.betweenStepsOk (h : e.Inv c) : e.betweenStepsOk = true := by
  have hacc : e.accOk = true := decide_eq_true h.acc_lt
  unfold Engine.betweenStepsOk
  cases hs : e.state with
  | idle => rfl
  | tbl => exact hacc
  | enc =>
    obtain ⟨-, -, hnb, hout⟩ := (phaseInv_enc hs).mp h.phase
    simp [hacc, hnb, hout]
  | dchk =>
    obtain ⟨-, hout, hvalid⟩ := (phaseInv_dchk hs).mp h.phase
    have hall : (e.input.take e.i).all (fun x => !isInvalid x) = true :=
      List.all_eq_true.mpr fun x hx => by simp [isInvalid, hvalid x hx]
    simp only [hacc, hout, hall, List.isEmpty_nil, Bool.and_self]
  | dec =>
    obtain ⟨-, -, hnb, -⟩ := (phaseInv_dec hs).mp h.phase
    cases hstop : e.stop with
    | true => simp [hacc]
    | false => simp [hacc, hnb hstop]

/-- The cursor is at a unit of `IN` or at its end (R30). -/
theorem Engine.Inv.cursor_cases (h : e.Inv c) : (e.i < e.n ∧ ∃ b, e.input[e.i]? = some b) ∨ e.i = e.n := by
  obtain hi | hi := h.i_le.lt_or_eq
  · exact .inl ⟨hi, _, List.getElem?_eq_getElem (h.n_eq ▸ hi)⟩
  · exact .inr hi

/-- R163 meets no model fault on a code that is not `INVALID`. -/
theorem decAccept_clean (e : Engine) {ch : Byte} (hch : classify ch ≠ .invalid) :
    ∃ x, e.decAccept ch = Progress.clean x := by
  unfold Engine.decAccept
  split
  · exact ⟨_, rfl⟩
  · split
    · exact ⟨_, rfl⟩
    · exact ⟨_, rfl⟩
    next hinv => exact absurd hinv hch

/-- The step of the captured command is enabled in every sequencing state but `IDLE`, and meets no model fault: in
`DEC` because the text has been validated. -/
theorem Engine.Inv.exists_clean_step (h : e.Inv c) (hb : e.state ≠ .idle) :
    ∃ i f, decode e.word = .ok i ∧ engineStep i e = .next (Progress.clean f) := by
  cases hs : e.state with
  | idle => exact absurd hs hb
  | enc =>
    obtain ⟨hword, -⟩ := (phaseInv_enc hs).mp h.phase
    obtain ⟨hi, b, hget⟩ | hi := h.cursor_cases
    · exact ⟨.enc, _, hword, encStep_of_byte hs hi hget⟩
    · exact ⟨.enc, _, hword, encStep_of_end hs hi⟩
  | dchk =>
    obtain ⟨hword, -⟩ := (phaseInv_dchk hs).mp h.phase
    obtain ⟨hi, ch, hget⟩ | hi := h.cursor_cases
    · exact ⟨.dec, _, hword, decStep_of_dchkChar hs hi hget⟩
    · exact ⟨.dec, _, hword, decStep_of_dchkEnd hs hi⟩
  | dec =>
    obtain ⟨hword, -, -, -, hvalid⟩ := (phaseInv_dec hs).mp h.phase
    obtain ⟨hi, ch, hget⟩ | hi := h.cursor_cases
    · obtain ⟨x, hx⟩ := decAccept_clean e (hvalid ch (List.mem_of_getElem? hget))
      exact ⟨.dec, _, hword, (decStep_of_decChar hs hi hget).trans (congrArg _ (decChar_of_clean hx))⟩
    · exact ⟨.dec, _, hword, decStep_of_decEnd hs hi⟩
  | tbl =>
    obtain ⟨⟨i, hword, hdata⟩, -⟩ := (phaseInv_tbl hs).mp h.phase
    cases i with
    | enc | dec => cases hdata
    | fwd v => exact ⟨.fwd v, _, hword, tableStep_of_tbl hs _⟩
    | rev ch => exact ⟨.rev ch, _, hword, tableStep_of_tbl hs _⟩

/-- A busy engine has a turn without a model fault: its step meets none, and the check after it finds none, because
the move has kept the invariant. -/
theorem Engine.Inv.exists_turn (h : e.Inv c) (hb : e.state ≠ .idle) : ∃ i f, e.Turn i f := by
  obtain ⟨i, f, hword, hstep⟩ := h.exists_clean_step hb
  have hf : f.Inv c := (move_of_engineStep hstep).keeps_inv h
  exact ⟨i, f, hb, hword, hstep, hf.betweenStepsOk⟩

end Turn

/-! ### A step under the invariant -/

/-- The machine goes on from `s` without a new fault mark. -/
def State.GoesOn (s : State) (o : Outcome State Fault Refusal) : Prop :=
  ∃ t, o = .next t ∧ t.faults = s.faults

/-- The turn of an engine that exists passes or is its step. -/
theorem engineTurn_goesOn {s : State} {k : Nat} {e : Engine} (h : e.Inv s.config) (he : s.engines[k]? = some e) :
    s.GoesOn (s.engineTurn k) := by
  by_cases hs : e.state = .idle
  · exact ⟨s, by simp [State.engineTurn, he, hs], rfl⟩
  · obtain ⟨i, f, -, hword, hstep, hok⟩ := h.exists_turn hs
    have hlen : k < s.engines.length := (List.getElem?_eq_some_iff.mp he).1
    rw [engineTurn_of_busy he hs hword, exec_eq_advance, advance_of_next (s := { s with turn := k }) he hword hstep]
    refine ⟨_, rfl, ?_⟩
    rw [checkBetweenSteps_eq (e := f) (by simp [Progress.clean, hlen])]
    simp [Progress.clean, Engine.betweenStepsFaults, hok]

theorem issue_goesOn {s : State} {k : Nat} {e : Engine} (he : s.engines[k]? = some e) (w : CmdWord) (d : List Byte) :
    s.GoesOn (s.issue k w d) := by
  obtain ⟨_, -, hr⟩ | ⟨_, -, hr⟩ := issue_cases (w := w) (d := d) he
  · exact ⟨_, hr, rfl⟩
  · exact ⟨_, hr, rfl⟩

theorem hostReadReg_goesOn {s : State} {k : Nat} {e : Engine} (he : s.engines[k]? = some e) (r : Nat) :
    s.GoesOn (s.hostReadReg k r) := by
  simp only [State.hostReadReg, he]
  split
  · exact ⟨_, rfl, rfl⟩
  · exact ⟨_, rfl, rfl⟩

theorem hostReadOut_goesOn {s : State} {k : Nat} {e : Engine} (he : s.engines[k]? = some e) (j : Nat) :
    s.GoesOn (s.hostReadOut k j) := by
  simp only [State.hostReadOut, he]
  split
  · exact ⟨_, rfl, rfl⟩
  · exact ⟨_, rfl, rfl⟩

/-- An item that names an engine the block does not have stops the machine (log 11); any other goes on. -/
theorem perform_goesOn {s : State} (h : s.Inv) (ev : Event) :
    s.GoesOn (s.perform ev) ∨ s.perform ev = .fault .noSuchEngine := by
  obtain ⟨-, -, hinv⟩ := h
  cases ev with
  | issue k w d =>
    cases he : s.engines[k]? with
    | none => exact .inr (by simp [State.perform, State.issue, he])
    | some e => exact .inl (issue_goesOn he w d)
  | readReg k r =>
    cases he : s.engines[k]? with
    | none => exact .inr (by simp [State.perform, State.hostReadReg, he])
    | some e => exact .inl (hostReadReg_goesOn he r)
  | readOut k j =>
    cases he : s.engines[k]? with
    | none => exact .inr (by simp [State.perform, State.hostReadOut, he])
    | some e => exact .inl (hostReadOut_goesOn he j)
  | reset => exact .inl ⟨_, rfl, rfl⟩
  | run k =>
    cases he : s.engines[k]? with
    | none => exact .inr (by simp [State.perform, State.engineTurn, he])
    | some e => exact .inl (engineTurn_goesOn (hinv e (List.mem_of_getElem? he)) he)

/-- Under the invariant the machine stops only for an engine it does not have, or with nothing to do (log 6, 11). -/
theorem step_goesOn {s : State} (h : s.Inv) :
    s.GoesOn (step s) ∨ step s = .fault .noSuchEngine ∨ step s = .fault .idle := by
  unfold step State.stepOnce
  split
  next ev rest _ => exact (perform_goesOn (s := { s with agenda := rest }) h ev).imp_right .inl
  · split
    next k _ => exact (perform_goesOn h (.run k)).imp_right .inl
    · exact .inr (.inr rfl)

/-- Settles O51: a step goes on without a new fault mark, or stops for one of the two other reasons. -/
theorem noModelFaultUnderTheInvariant : Obligations.NoModelFaultUnderTheInvariant := by
  intro s h
  obtain ⟨t, ht, hfaults⟩ | hstop | hstop := step_goesOn h
  · rw [ht]
    exact ⟨fun u hu => by cases hu; exact hfaults, nofun, nofun⟩
  · rw [hstop]
    exact ⟨nofun, nofun, nofun⟩
  · rw [hstop]
    exact ⟨nofun, nofun, nofun⟩

end Sys2Proof.Machine

/-!
PROOFS. Reset and the scheduling of engines (70_reset_and_hazards.md): a busy engine refuses a command, has exactly
one enabled step, and with every step comes closer to the end of its command.
-/

namespace Sys2Proof.Machine

/-! ### Reset, and a command to a busy engine (R230, R235) -/

/-- Settles O33: reset writes the engines, each to the reset engine, and nothing else. -/
theorem resetClearsEveryEngine : Obligations.ResetClearsEveryEngine := by
  intro s rest hag
  refine ⟨_, step_of_agenda hag, rfl, rfl, rfl, rfl, rfl, List.length_map _, fun e he => ?_⟩
  obtain ⟨-, -, rfl⟩ := List.mem_map.mp he
  rfl

/-- Settles O29: an engine asks whether it is busy before it looks at the word (log 8). -/
theorem busyEngineIsUnaffected : Obligations.BusyEngineIsUnaffected := by
  intro s k w d rest e hag he hs
  exact step_issue_of_error hag he (by rw [Engine.acceptCommand, busy_eq_true_iff.mpr hs, if_pos rfl])

/-! ### Where no step is enabled (R239, log 11) -/

section NotEnabled

variable {e : Engine}

theorem encStep_of_not_enabled (h : e.state ≠ .enc ∨ e.n < e.i) : e.encStep = .fault .noEnabledStep := by
  unfold Engine.encStep
  cases hs : e.state with
  | idle | dchk | dec | tbl => rfl
  | enc =>
    have hi : e.n < e.i := h.resolve_left (not_not_intro hs)
    simp only [hi.not_gt, hi.ne', if_false]

theorem decStep_of_not_enabled (h : (e.state ≠ .dchk ∧ e.state ≠ .dec) ∨ e.n < e.i) :
    e.decStep = .fault .noEnabledStep := by
  unfold Engine.decStep
  cases hs : e.state with
  | idle | enc | tbl => rfl
  | dchk | dec =>
    have hi : e.n < e.i := h.resolve_left (by simp [hs])
    simp only [hi.not_gt, hi.ne', if_false]

theorem tableStep_of_not_enabled (h : e.state ≠ .tbl) (f : Engine → Engine) :
    tableStep f e = .fault .noEnabledStep := by
  unfold tableStep
  cases hs : e.state with
  | idle | enc | dchk | dec => rfl
  | tbl => exact absurd hs h

/-- No instruction has a step on an `IDLE` engine (U20). -/
theorem engineStep_of_idle (hs : e.state = .idle) (i : Instr) : engineStep i e = .fault .noEnabledStep := by
  cases i with
  | enc => exact encStep_of_not_enabled (.inl (by simp [hs]))
  | dec => exact decStep_of_not_enabled (.inl (by simp [hs]))
  | fwd v => exact tableStep_of_not_enabled (by simp [hs]) _
  | rev c => exact tableStep_of_not_enabled (by simp [hs]) _

/-- An instruction has no step where its engine has captured another word, or none in its present state. -/
theorem exec_of_not_enabled {s : State} {i : Instr} (he : s.engines[s.turn]? = some e)
    (h : decode e.word = .ok i → engineStep i e = .fault .noEnabledStep) : exec i s = .fault .noEnabledStep := by
  rw [exec_eq_advance, State.advance, he]
  by_cases hi : decode e.word = .ok i
  · simp [holds_iff.mpr hi, h hi]
  · simp [mt holds_iff.mp hi]

end NotEnabled

/-- Settles O24: the captured word, the idle engine, and the state and cursor that each family asks for. -/
theorem noStepOutsideItsOwnCommand : Obligations.NoStepOutsideItsOwnCommand := by
  intro i s e he h
  refine exec_of_not_enabled he fun hi => ?_
  obtain hword | hidle | ⟨rfl, h⟩ | ⟨rfl, h⟩ | ⟨hdata, hs⟩ := h
  · exact absurd hi hword
  · exact engineStep_of_idle hidle i
  · exact encStep_of_not_enabled h
  · exact decStep_of_not_enabled h
  · cases i with
    | enc | dec => cases hdata
    | fwd v => exact tableStep_of_not_enabled hs _
    | rev c => exact tableStep_of_not_enabled hs _

/-- Settles O52: the captured instruction has its step under the invariant, and no other is captured. -/
theorem busyEngineHasExactlyOneStep : Obligations.BusyEngineHasExactlyOneStep := by
  intro s k e hinv he hs
  obtain ⟨-, -, hengines⟩ := hinv
  obtain ⟨i, f, hi, hstep⟩ := (hengines e (List.mem_of_getElem? he)).exists_clean_step hs
  refine ⟨i, ⟨_, (exec_eq_advance i _).trans (advance_of_next (s := { s with turn := k }) he hi hstep)⟩, ?_⟩
  intro j hji
  exact exec_of_not_enabled (s := { s with turn := k }) he fun hj =>
    absurd (Except.ok.inj (hj.symm.trans hi)) hji

/-! ### Whose turn it is (R239, U20) -/

section Schedule

variable {s : State} {k : Nat} {e : Engine}

theorem engineTurn_of_idle (he : s.engines[k]? = some e) (hs : e.state = .idle) : s.engineTurn k = .next s := by
  simp [State.engineTurn, he, hs]

/-- A turn without a model fault writes the engine and whose turn it is. -/
theorem engineTurn_of_turn {i : Instr} {f : Engine} (he : s.engines[k]? = some e) (h : e.Turn i f) :
    s.engineTurn k = .next { s with turn := k, engines := s.engines.set k f } := by
  obtain ⟨hs, hi, hstep, hok⟩ := h
  exact step_run_of_clean (s := { s with agenda := .run k :: s.agenda }) rfl he hs hi hstep hok

theorem firstBusy_eq_some_iff : s.firstBusy = some k ↔
    (∃ e, s.engines[k]? = some e ∧ e.state ≠ .idle) ∧
      ∀ j f, j < k → s.engines[j]? = some f → f.state = .idle := by
  simp only [State.firstBusy, List.findIdx?_eq_some_iff_getElem, List.getElem?_eq_some_iff, busy_eq_true_iff]
  constructor
  · rintro ⟨hk, hb, hleast⟩
    refine ⟨⟨_, ⟨hk, rfl⟩, hb⟩, ?_⟩
    rintro j f hj ⟨hlen, rfl⟩
    exact not_not.mp (hleast j hj)
  · rintro ⟨⟨e, ⟨hk, rfl⟩, hb⟩, hleast⟩
    exact ⟨hk, hb, fun j hj => not_not_intro (hleast j _ hj ⟨hj.trans hk, rfl⟩)⟩

theorem firstBusy_eq_none_iff : s.firstBusy = none ↔ ∀ e ∈ s.engines, e.state = .idle := by
  simp only [State.firstBusy, List.findIdx?_eq_none_iff, busy_eq_false_iff]

theorem quiet_eq_true_iff : s.quiet = true ↔ s.firstBusy = none := by
  simp [State.quiet, firstBusy_eq_none_iff]

/-- With an empty agenda the lowest-numbered busy engine takes its turn (log 4). -/
theorem step_of_firstBusy (hag : s.agenda = []) (hk : s.firstBusy = some k) : step s = s.engineTurn k := by
  simp only [step, State.stepOnce, hag, hk]

end Schedule

/-- Settles O27: the turn of an idle engine, and the two answers of `firstBusy` when the agenda is empty. -/
theorem turnsPassMoveOrEnd : Obligations.TurnsPassMoveOrEnd := by
  refine ⟨fun s k rest e hag he hs => ?_, fun s hag => ⟨fun k e he hs hleast => ?_, fun hidle => ?_⟩⟩
  · rw [step_of_agenda hag]
    exact engineTurn_of_idle (s := { s with agenda := rest }) he hs
  · exact step_of_firstBusy hag (firstBusy_eq_some_iff.mpr ⟨⟨e, he, hs⟩, hleast⟩)
  · simp only [step, State.stepOnce, hag, firstBusy_eq_none_iff.mpr hidle]

/-! ### How many steps a command has left (R239) -/

/-- The most steps an engine can still take: one for each unit of `IN` not yet consumed and one for the end step; a
text being validated is then consumed once more (R161 to R164). -/
def Engine.stepsLeft (e : Engine) : Nat :=
  match e.state with
  | .idle => 0
  | .tbl => 1
  | .enc => e.n - e.i + 1
  | .dchk => e.n - e.i + 1 + (e.n + 1)
  | .dec => e.n - e.i + 1

section StepsLeft

variable {e f : Engine}

/-- No command has more steps left than `DEC` has at its start. -/
theorem Engine.stepsLeft_le (e : Engine) : e.stepsLeft ≤ 2 * e.n + 2 := by
  unfold Engine.stepsLeft
  split <;> omega

/-- A step that ends the command leaves none. -/
theorem stepsLeft_lt_of_completed (he : e.state ≠ .idle) (hf : f.state = .idle) : f.stepsLeft < e.stepsLeft := by
  unfold Engine.stepsLeft
  cases hs : e.state with
  | idle => exact absurd hs he
  | enc | dchk | dec | tbl => simp [hf]

/-- A step that consumes a unit of `IN` leaves one fewer, in each state that reads `IN`. -/
theorem stepsLeft_lt_of_consumed (he : e.state ≠ .idle ∧ e.state ≠ .tbl) (hs : f.state = e.state) (hn : f.n = e.n)
    (hf : f.i = e.i + 1) (hi : e.i < e.n) : f.stepsLeft < e.stepsLeft := by
  unfold Engine.stepsLeft
  rw [hs, hn, hf]
  cases hst : e.state with
  | idle => exact absurd hst he.1
  | tbl => exact absurd hst he.2
  | enc | dchk | dec =>
    simp only
    omega

/-- Validation leaves the decoding of the same text (R162). -/
theorem dchkEnd_stepsLeft (hs : e.state = .dchk) : e.dchkEnd.stepsLeft < e.stepsLeft := by
  have hdec : e.dchkEnd.stepsLeft = e.n + 1 := rfl
  have hdchk : e.stepsLeft = e.n - e.i + 1 + (e.n + 1) := by rw [Engine.stepsLeft, hs]
  omega

theorem decAccept_cursor (e : Engine) (c : Byte) : (e.decAccept c).engine.i = e.i := by
  unfold Engine.decAccept
  split
  · rfl
  · split <;> rfl

/-- A `DEC` step consumes one character, whatever it is (R163). -/
theorem decChar_cursor (e : Engine) (c : Byte) : (e.decChar c).engine.i = e.i + 1 := by
  rw [Engine.decChar, decAdvance_eq, decAccept_cursor]
  split <;> rfl

theorem decChar_worksTo (hs : e.state = .dec) (c : Byte) : e.WorksTo (e.decChar c).engine .dec :=
  hs ▸ decAdvance_worksTo (decAccept_worksTo e c)

/-- Every move leaves fewer steps: it consumes a unit of `IN`, passes from validation to decoding, or completes. -/
theorem Engine.Move.stepsLeft_lt {i : Instr} {p : Progress} (h : e.Move i p) : p.engine.stepsLeft < e.stepsLeft := by
  cases h with
  | encByte hs hi _ => exact stepsLeft_lt_of_consumed (by simp [hs]) rfl rfl rfl hi
  | encEnd hs _ => exact stepsLeft_lt_of_completed (by simp [hs]) rfl
  | @dchkChar c hs hi _ =>
    rw [Progress.clean, dchkChar_eq]
    split
    · exact stepsLeft_lt_of_completed (by simp [hs]) rfl
    · exact stepsLeft_lt_of_consumed (by simp [hs]) rfl rfl rfl hi
  | dchkEnd hs _ => exact dchkEnd_stepsLeft hs
  | @decChar c hs hi _ =>
    obtain ⟨_, _, _, _, _, _, hf⟩ := decChar_worksTo hs c
    exact stepsLeft_lt_of_consumed (by simp [hs]) (by rw [hf, hs]) (by rw [hf]) (decChar_cursor e c) hi
  | decEnd hs _ => exact stepsLeft_lt_of_completed (by simp [hs]) rfl
  | fwd v hs => exact stepsLeft_lt_of_completed (by simp [hs]) rfl
  | rev c hs => exact stepsLeft_lt_of_completed (by simp [hs]) (revStep_state e c)

end StepsLeft

/-! ### Left alone, the block becomes quiet (R239) -/

/-- The most steps the engines can still take together. -/
def State.stepsLeft (s : State) : Nat := (s.engines.map Engine.stepsLeft).sum

theorem State.stepsLeft_le (s : State) : s.stepsLeft ≤ (s.engines.map fun e => 2 * e.n + 2).sum :=
  List.sum_le_sum fun e _ => Engine.stepsLeft_le e

/-- An engine that has fewer steps left takes that much off the sum. -/
theorem sum_stepsLeft_set_lt {es : List Engine} {k : Nat} {e f : Engine} (he : es[k]? = some e)
    (h : f.stepsLeft < e.stepsLeft) : ((es.set k f).map Engine.stepsLeft).sum < (es.map Engine.stepsLeft).sum := by
  obtain ⟨hk, rfl⟩ := List.getElem?_eq_some_iff.mp he
  obtain ⟨before, behind, hes, -, hset⟩ := List.exists_of_set (a' := f) hk
  rw [hset, hes]
  simpa using h

/-- While some engine is busy the block takes a step, and has fewer left after it. -/
theorem exists_step_of_not_quiet {s : State} (h : s.Inv) (hag : s.agenda = []) (hq : s.quiet ≠ true) :
    ∃ t, step s = .next t ∧ t.agenda = [] ∧ t.stepsLeft < s.stepsLeft := by
  obtain ⟨-, -, hinv⟩ := h
  obtain ⟨k, hk⟩ := Option.ne_none_iff_exists'.mp (mt quiet_eq_true_iff.mpr hq)
  obtain ⟨⟨e, he, hs⟩, -⟩ := firstBusy_eq_some_iff.mp hk
  obtain ⟨i, f, hturn⟩ := (hinv e (List.mem_of_getElem? he)).exists_turn hs
  have ⟨_, _, hstep, _⟩ := hturn
  exact ⟨_, (step_of_firstBusy hag hk).trans (engineTurn_of_turn he hturn), hag,
    sum_stepsLeft_set_lt he (move_of_engineStep hstep).stepsLeft_lt⟩

/-- By induction on the steps left, which every step makes fewer. -/
theorem exists_run_quiet {s : State} (h : s.Inv) (hag : s.agenda = []) :
    ∃ m t, m ≤ s.stepsLeft ∧ core.run m s = .next t ∧ t.quiet = true := by
  induction hn : s.stepsLeft using Nat.strong_induction_on generalizing s with
  | h n ih =>
    by_cases hq : s.quiet = true
    · exact ⟨0, s, Nat.zero_le n, rfl, hq⟩
    · obtain ⟨s', hstep, hag', hlt⟩ := exists_step_of_not_quiet h hag hq
      obtain ⟨m, t, hm, hrun, ht⟩ := ih _ (hn ▸ hlt) (stepKeepsTheInvariant s s' h hstep) hag' rfl
      exact ⟨m + 1, t, by omega, (run_succ_eq_next core).mpr ⟨s', hstep, hrun⟩, ht⟩

/-- Settles O53: each step of the lowest-numbered busy engine leaves that engine fewer, and an engine never has more
than `2N + 2` left. -/
theorem everyRunningCommandCompletes : Obligations.EveryRunningCommandCompletes := by
  intro s h hag
  obtain ⟨m, t, hm, hrun, hquiet⟩ := exists_run_quiet h hag
  exact ⟨m, t, hm.trans s.stepsLeft_le, hrun, hquiet⟩

end Sys2Proof.Machine
